-- ==== Sys2Proof/Word.lean ====
section
/-!
DEFINITION. The value types of the core: command words, bytes, field elements, points, permutation states
(spec/00_scope.md R6, R11, R13), and the names of registers, slots, addresses and status registers
(spec/30_encoding.md R73, R74; spec/10_state.md R21).
-/

namespace Sys2Proof

/-- A command word (30_encoding R70). -/
abbrev Word := BitVec 32

/-- A byte of the operand buffer (00_scope R11). -/
abbrev Byte := BitVec 8

/-- The fixed prime (00_scope R6). -/
abbrev P : Nat := 2 ^ 251 + 17 * 2 ^ 192 + 1

/-- `Felt`: a natural number in `[0, P)` (00_scope R13). A value of 252 bits at or above `P` is never stored
(10_state R24), so the type has none (log entry 5). -/
abbrev Felt := Fin P

theorem P_pos : 0 < P := by decide

/-- A pair of coordinates, as the constant tables hold it (00_scope R7). -/
structure Affine where
  x : Felt
  y : Felt
deriving DecidableEq, Repr, Inhabited

/-- `Point`: the tagged variant `Identity | Affine(x, y)` (00_scope R13, 10_state R25). -/
inductive Point where
  | identity
  | affine (x y : Felt)
deriving DecidableEq, Repr, Inhabited

/-- The point of a coordinate pair. -/
def Affine.point (a : Affine) : Point := .affine a.x a.y

/-- `State3`: an ordered triple of `Felt`, indexed 0, 1, 2 (00_scope R13, 43_poseidon R190). -/
structure State3 where
  s0 : Felt
  s1 : Felt
  s2 : Felt
deriving DecidableEq, Repr, Inhabited

/-- The number of an element register `E0 .. E15` (10_state R23). -/
abbrev EReg := Fin 16

/-- The number of a point register `P0 .. P7` (10_state R25). -/
abbrev PReg := Fin 8

/-- The number of a slot of the operand buffer (20_memory R51). -/
abbrev Slot := Fin 32

/-- An unsigned 12-bit immediate (30_encoding R74). -/
abbrev Imm12 := Fin 4096

/-- A byte address of the host port: exactly 10 bits (20_memory R50, R57). -/
abbrev Addr := Fin 1024

/-- The number of a status register (10_state R31). -/
abbrev CsrIndex := Fin 4

end Sys2Proof
end

