-- ==== Sys2Proof/Config.lean ====
section
/-!
DEFINITION. What is fixed for one block: the constants the spec gives the hardware (spec/00_scope.md R9) and the record
`Params` of the constant tables (R7), whose values the source withholds.
-/

namespace Sys2Proof

/-- The 3x3 matrix `POS_M`, by rows: `row0` is `POS_M[0][0..2]` (00_scope R7). -/
structure Matrix3 where
  row0 : State3
  row1 : State3
  row2 : State3
deriving DecidableEq, Repr, Inhabited

/-- The record `Params` (00_scope R7): the constant tables, held in read-only storage (10_state R32).
`alpha`, `beta` are `ALPHA`, `BETA`; `gx`, `gy` are `GX`, `GY`; `n` is `N`; `posM` is `POS_M`; `sigAlt` is `SIG_ALT`.
The table `POS_RC` is held as its three blocks, in round order: the rows of three constants of the initial full rounds,
the rows of one constant of the partial rounds, the rows of three constants of the final full rounds. The lengths
of the three lists are `POS_RF1`, `POS_RP`, `POS_RF2`, so W4 of R8 holds by construction, and W1 by the type
`Felt` (log entry 6). -/
structure Params where
  alpha : Felt
  beta : Felt
  gx : Felt
  gy : Felt
  n : Nat
  posFull1 : List State3
  posPartial : List Felt
  posFull2 : List State3
  posM : Matrix3
  pedShift : Affine
  pedP1 : Affine
  pedP2 : Affine
  pedP3 : Affine
  pedP4 : Affine
  sigAlt : Bool
deriving DecidableEq, Repr, Inhabited

/-- `POS_RF1`: how many full rounds the initial block has (00_scope R7). -/
def Params.posRF1 (p : Params) : Nat := p.posFull1.length

/-- `POS_RP`: how many partial rounds the middle block has (00_scope R7). -/
def Params.posRP (p : Params) : Nat := p.posPartial.length

/-- `POS_RF2`: how many full rounds the final block has (00_scope R7). -/
def Params.posRF2 (p : Params) : Nat := p.posFull2.length

/-- The generator `G` as a point (00_scope R7). -/
def Params.generator (p : Params) : Point := .affine p.gx p.gy

namespace Config

/-- The constant tables of this block. The source withholds their values (00_scope R7, 91 N1 to N5): a free value.
It has no body, so nothing can be proved of it that does not hold of every `Params` (log entry 1). -/
opaque params : Params

/-- `NE`: the number of element registers (00_scope R9). -/
def ne : Nat := 16

/-- `NP`: the number of point registers (00_scope R9). -/
def np : Nat := 8

/-- `NSLOT`: the number of slots (00_scope R9). -/
def nSlot : Nat := 32

/-- `BUF_BYTES`: the size of the operand buffer in bytes (00_scope R9). -/
def bufBytes : Nat := 1024

/-- `CMD_BITS`: the width of a command word (00_scope R9). -/
def cmdBits : Nat := 32

/-- `ID_VALUE`: what the read-only `ID` register reads as (00_scope R9, 10_state R31). -/
def idValue : Word := 0x5A534401#32

end Config

end Sys2Proof
end

