-- ==== Sys2Proof/Machine/FieldUnit.lean ====
section
/-!
DEFINITION. The Field component as pure functions (spec/40_field.md R100 to R107), and the two reference datapaths the
spec gives beside them (R104, R107).
-/

namespace Sys2Proof.Machine

/-- The modular reducer: `reduce_p(v) = v mod P` (40_field R104). -/
def reduceP (v : Nat) : Felt := ⟨v % P, Nat.mod_lt _ P_pos⟩

/-- `fadd(a, b) = (a + b) mod P` (40_field R100). -/
def fadd (a b : Felt) : Felt := reduceP (a.val + b.val)

/-- `fsub(a, b) = (a - b) mod P` (40_field R101): `P` is added before subtracting, so that no step is negative. -/
def fsub (a b : Felt) : Felt := reduceP (a.val + P - b.val)

/-- `fneg(a) = (P - a) mod P` (40_field R102). -/
def fneg (a : Felt) : Felt := reduceP (P - a.val)

/-- `fmul(a, b) = reduce_p(a * b)` (40_field R103). -/
def fmul (a b : Felt) : Felt := reduceP (a.val * b.val)

/-- `fsqr(a) = fmul(a, a)` (40_field R105). -/
def fsqr (a : Felt) : Felt := fmul a a

/-- `a^k mod m` by square-and-multiply over the low `fuel` bits of `k`, most significant first. -/
def powModFuel (m a : Nat) : Nat → Nat → Nat
  | 0, _ => 1 % m
  | fuel + 1, k =>
    if k = 0 then 1 % m
    else
      let h := powModFuel m a fuel (k / 2)
      if k % 2 = 1 then h * h % m * a % m else h * h % m

/-- `a^k mod m` for natural numbers. -/
def powMod (m a k : Nat) : Nat := powModFuel m a (k.log2 + 1) k

/-- `fpow(a, k) = a^k mod P`, with `fpow(a, 0) = 1` (40_field R107). -/
def fpow (a : Felt) (k : Nat) : Felt := reduceP (powMod P a.val k)

/-- The field-element inverse by the spec's reference datapath, `finv(a) = fpow(a, P - 2)` (40_field R106). `finv(0)`
is not defined by the spec, and no rule uses it: what stands here for 0 reaches no result (log entry 9). -/
def finv (a : Felt) : Felt := fpow a (P - 2)

/-- `MU`, the Barrett constant of the reference reducer (40_field R104). -/
def barrettMu : Nat := 2 ^ 504 / P

/-- The reference datapath of the reducer, Barrett reduction (40_field R104). -/
def barrett (v : Nat) : Nat :=
  let q1 := v / 2 ^ 251
  let q2 := q1 * barrettMu
  let q3 := q2 / 2 ^ 253
  let r := v - q3 * P
  let r := if P ≤ r then r - P else r
  if P ≤ r then r - P else r

/-- The reference datapath of exponentiation over the low `n` bits of `k`, most significant first, from `r`
(40_field R107). -/
def fpowLadder (a : Felt) (k : Nat) : Nat → Felt → Felt
  | 0, r => r
  | n + 1, r =>
    let q := fsqr r
    fpowLadder a k n (if k / 2 ^ n % 2 = 1 then fmul q a else q)

/-- The reference datapath of exponentiation: 252 iterations whatever the exponent (40_field R107). -/
def fpowReference (a : Felt) (k : Nat) : Felt := fpowLadder a k 252 (reduceP 1)

end Sys2Proof.Machine
end

