-- ==== Sys2Proof/Machine/CurveUnit.lean ====
section
/-!
DEFINITION. The Curve component as pure functions (spec/42_curve.md R150 to R164). The curve's coefficients are fields
of `Params`.
-/

namespace Sys2Proof.Machine

/-- The membership test `y^2 = x^3 + ALPHA*x + BETA (mod P)` (42_curve R150). -/
def onCurve (p : Params) (x y : Felt) : Bool :=
  decide (fsqr y = fadd (fadd (fmul (fsqr x) x) (fmul p.alpha x)) p.beta)

/-- A point the state may hold: `Identity`, or a pair on the curve (10_state R26). These are the curve points of 42_curve
R162: `pneg`, `padd` and `pdbl` map them to themselves, and with W5 they form a commutative group under `padd`,
`.identity` and `pneg`. The definitions assume none of that; Obligations.PointsFormCommutativeGroup states it. -/
def pointValid (p : Params) : Point → Bool
  | .identity => true
  | .affine x y => onCurve p x y

/-- `pneg` (42_curve R151). -/
def pneg : Point → Point
  | .identity => .identity
  | .affine x y => .affine x (fneg y)

/-- `peq` (42_curve R152). -/
def peq : Point → Point → Bool
  | .identity, .identity => true
  | .identity, .affine _ _ => false
  | .affine _ _, .identity => false
  | .affine x1 y1, .affine x2 y2 => decide (x1 = x2) && decide (y1 = y2)

/-- The third point of the line of slope `lam` through points with x-coordinates `x1`, `x2`, negated
(42_curve R160, R161). -/
def lineThird (lam x1 y1 x2 : Felt) : Point :=
  let x3 := fsub (fsub (fsqr lam) x1) x2
  .affine x3 (fsub (fmul lam (fsub x1 x3)) y1)

/-- The slope of the tangent at `(x1, y1)` (42_curve R161). -/
def tangentSlope (p : Params) (x1 y1 : Felt) : Felt :=
  fmul (fadd (fmul (reduceP 3) (fsqr x1)) p.alpha) (finv (fadd y1 y1))

/-- The slope of the chord through `(x1, y1)` and `(x2, y2)` (42_curve R160). -/
def chordSlope (x1 y1 x2 y2 : Felt) : Felt := fmul (fsub y2 y1) (finv (fsub x2 x1))

/-- `pdbl`, the point doubler (42_curve R161). -/
def pdbl (p : Params) : Point → Point
  | .identity => .identity
  | .affine x1 y1 =>
    if y1.val = 0 then .identity else lineThird (tangentSlope p x1 y1) x1 y1 x1

/-- `padd`, the point adder, by cases in the order of 42_curve R160. -/
def padd (p : Params) : Point → Point → Point
  | .identity, b => b
  | .affine x1 y1, .identity => .affine x1 y1
  | .affine x1 y1, .affine x2 y2 =>
    if x1 = x2 then
      if y1 = y2 ∧ y1.val ≠ 0 then pdbl p (.affine x1 y1) else .identity
    else lineThird (chordSlope x1 y1 x2 y2) x1 y1 x2

/-- The binary recursion of 42_curve R163 over the low `fuel` bits of `k`. -/
def smulFuel (p : Params) (a : Point) : Nat → Nat → Point
  | 0, _ => .identity
  | fuel + 1, k =>
    if k = 0 then .identity
    else
      let h := smulFuel p a fuel (k / 2)
      let d := padd p h h
      if k % 2 = 1 then padd p d a else d

/-- `smul(k, A)` for a natural number `k` (42_curve R163). -/
def smul (p : Params) (k : Nat) (a : Point) : Point := smulFuel p a (k.log2 + 1) k

/-- The reference datapath of the scalar multiplier over the low `n` bits of `k`, most significant first, from `r`
(42_curve R164). -/
def smulLadder (p : Params) (a : Point) (k : Nat) : Nat → Point → Point
  | 0, r => r
  | n + 1, r =>
    let d := pdbl p r
    smulLadder p a k n (if k / 2 ^ n % 2 = 1 then padd p d a else d)

/-- The reference datapath of the scalar multiplier: 252 iterations whatever the scalar (42_curve R164). -/
def smulReference (p : Params) (k : Nat) (a : Point) : Point := smulLadder p a k 252 .identity

end Sys2Proof.Machine
end

