-- ==== Sys2Proof/Syntax.lean ====
section
/-!
DEFINITION. The commands, one constructor per row of the opcode map (spec/30_encoding.md R75, spec/opcode_table.json).
The arguments stand in the order of the fields `a, b, c, d, e`, then `slot` or `imm12` (R79).
-/

namespace Sys2Proof

/-- A command with its operands (30_encoding R75). -/
inductive Instr where
  | nop
  | clrerr
  | lde (rd : EReg) (slot : Slot)
  | ste (rs : EReg) (slot : Slot)
  | fli (rd : EReg) (imm : Imm12)
  | fmov (rd rs : EReg)
  | fadd (rd rs1 rs2 : EReg)
  | fsub (rd rs1 rs2 : EReg)
  | fneg (rd rs : EReg)
  | fmul (rd rs1 rs2 : EReg)
  | fsqr (rd rs : EReg)
  | finv (rd rs : EReg)
  | fpow (rd rs1 rs2 : EReg)
  | feq (rs1 rs2 : EReg)
  | pset (pd : PReg) (rsx rsy : EReg)
  | pinf (pd : PReg)
  | pgen (pd : PReg)
  | pmov (pd ps : PReg)
  | pgetx (rd : EReg) (ps : PReg)
  | pgety (rd : EReg) (ps : PReg)
  | pisinf (ps : PReg)
  | ponc (rsx rsy : EReg)
  | peq (ps1 ps2 : PReg)
  | pneg (pd ps : PReg)
  | padd (pd ps1 ps2 : PReg)
  | pdbl (pd ps : PReg)
  | smul (pd : PReg) (rk : EReg) (ps : PReg)
  | poseidon (rb : EReg)
  | pedersen (rd rs1 rs2 : EReg)
  | verify (rm rr rs : EReg) (pk : PReg)
  | verifyxy (rm rr rs rx ry : EReg)
  | schk (rs : EReg)
deriving DecidableEq, Repr

end Sys2Proof
end

