-- ==== Sys2Proof/WellFormed.lean ====
section
/-!
DEFINITION. Which terms of `Instr` are commands: the one operand condition the types do not carry
(spec/30_encoding.md R73, R75, R76 step 4).
-/

namespace Sys2Proof

/-- A command the encoding can express: the base of `POSEIDON` is at most 13 (30_encoding R73). The ranges of
every other field are carried by the operand types. -/
def Instr.wellFormed : Instr → Bool
  | .nop => true
  | .clrerr => true
  | .lde _ _ => true
  | .ste _ _ => true
  | .fli _ _ => true
  | .fmov _ _ => true
  | .fadd _ _ _ => true
  | .fsub _ _ _ => true
  | .fneg _ _ => true
  | .fmul _ _ _ => true
  | .fsqr _ _ => true
  | .finv _ _ => true
  | .fpow _ _ _ => true
  | .feq _ _ => true
  | .pset _ _ _ => true
  | .pinf _ => true
  | .pgen _ => true
  | .pmov _ _ => true
  | .pgetx _ _ => true
  | .pgety _ _ => true
  | .pisinf _ => true
  | .ponc _ _ => true
  | .peq _ _ => true
  | .pneg _ _ => true
  | .padd _ _ _ => true
  | .pdbl _ _ => true
  | .smul _ _ _ => true
  | .poseidon rb => decide (rb.val ≤ 13)
  | .pedersen _ _ _ => true
  | .verify _ _ _ _ => true
  | .verifyxy _ _ _ _ _ => true
  | .schk _ => true

end Sys2Proof
end

