-- ==== Sys2Proof/Decode.lean ====
section
/-!
DEFINITION. The decoder of command words, total on all `2^32` words and rejecting by name (spec/30_encoding.md R70 to
R77), and the encoder written from the same opcode map (R75).
-/

namespace Sys2Proof

/-- `w[hi:lo]` as a number (00_scope R11). -/
def bits (w : Word) (hi lo : Nat) : Nat := w.toNat / 2 ^ lo % 2 ^ (hi + 1 - lo)

/-- The four bits of `w` from bit `lo` up, as a register field (30_encoding R71, R73). -/
def regField (w : Word) (lo : Nat) : EReg := ⟨w.toNat / 2 ^ lo % 16, Nat.mod_lt _ (by decide)⟩

/-- Field `a`, `w[23:20]` (30_encoding R71). -/
def fieldA (w : Word) : EReg := regField w 20

/-- Field `b`, `w[19:16]` (30_encoding R71). -/
def fieldB (w : Word) : EReg := regField w 16

/-- Field `c`, `w[15:12]` (30_encoding R71). -/
def fieldC (w : Word) : EReg := regField w 12

/-- Field `d`, `w[11:8]` (30_encoding R71). -/
def fieldD (w : Word) : EReg := regField w 8

/-- Field `e`, `w[7:4]` (30_encoding R71). -/
def fieldE (w : Word) : EReg := regField w 4

/-- Field `slot`, `w[4:0]` (30_encoding R71, R74). -/
def fieldSlot (w : Word) : Slot := ⟨w.toNat % 32, Nat.mod_lt _ (by decide)⟩

/-- Field `imm12`, `w[11:0]` (30_encoding R71, R74). -/
def fieldImm12 (w : Word) : Imm12 := ⟨w.toNat % 4096, Nat.mod_lt _ (by decide)⟩

/-- Why a word is no command, by the step of 30_encoding R76 that rejects it. -/
inductive Illegal where
  /-- Step 1: `w[31:24]` is none of the 32 opcodes. -/
  | opcode
  /-- Step 2: a bit the format requires to be zero is 1. -/
  | mustBeZero
  /-- Step 3: a field that names a P register has its top bit set. -/
  | pointRegister
  /-- Step 4: `POSEIDON` with a base above 13. -/
  | poseidonBase
deriving DecidableEq, Repr

/-- Step 2 of 30_encoding R76 for the bits `w[hi:lo]`. -/
def requireZero (w : Word) (hi lo : Nat) (rest : Except Illegal Instr) : Except Illegal Instr :=
  if bits w hi lo = 0 then rest else .error .mustBeZero

/-- Step 3 of 30_encoding R76: the P register a field names. -/
def withPReg (r : EReg) (rest : PReg → Except Illegal Instr) : Except Illegal Instr :=
  if h : r.val < 8 then rest ⟨r.val, h⟩ else .error .pointRegister

/-- Format Z: only the opcode (30_encoding R72). -/
def formatZ (w : Word) (i : Instr) : Except Illegal Instr := requireZero w 23 0 (.ok i)

/-- Format R1 (30_encoding R72). -/
def formatR1 (w : Word) (rest : Except Illegal Instr) : Except Illegal Instr := requireZero w 19 0 rest

/-- Format R2 (30_encoding R72). -/
def formatR2 (w : Word) (rest : Except Illegal Instr) : Except Illegal Instr := requireZero w 15 0 rest

/-- Format R3 (30_encoding R72). -/
def formatR3 (w : Word) (rest : Except Illegal Instr) : Except Illegal Instr := requireZero w 11 0 rest

/-- Format R4 (30_encoding R72). -/
def formatR4 (w : Word) (rest : Except Illegal Instr) : Except Illegal Instr := requireZero w 7 0 rest

/-- Format R5 (30_encoding R72). -/
def formatR5 (w : Word) (rest : Except Illegal Instr) : Except Illegal Instr := requireZero w 3 0 rest

/-- Format M (30_encoding R72). -/
def formatM (w : Word) (rest : Except Illegal Instr) : Except Illegal Instr := requireZero w 19 5 rest

/-- Format I (30_encoding R72). -/
def formatI (w : Word) (rest : Except Illegal Instr) : Except Illegal Instr := requireZero w 19 12 rest

/-- The decoder (30_encoding R76, over the opcode map of R75). -/
def decode (w : Word) : Except Illegal Instr :=
  match bits w 31 24 with
  | 0x00 => formatZ w .nop
  | 0x01 => formatZ w .clrerr
  | 0x10 => formatM w (.ok (.lde (fieldA w) (fieldSlot w)))
  | 0x11 => formatM w (.ok (.ste (fieldA w) (fieldSlot w)))
  | 0x12 => formatI w (.ok (.fli (fieldA w) (fieldImm12 w)))
  | 0x13 => formatR2 w (.ok (.fmov (fieldA w) (fieldB w)))
  | 0x20 => formatR3 w (.ok (.fadd (fieldA w) (fieldB w) (fieldC w)))
  | 0x21 => formatR3 w (.ok (.fsub (fieldA w) (fieldB w) (fieldC w)))
  | 0x22 => formatR2 w (.ok (.fneg (fieldA w) (fieldB w)))
  | 0x23 => formatR3 w (.ok (.fmul (fieldA w) (fieldB w) (fieldC w)))
  | 0x24 => formatR2 w (.ok (.fsqr (fieldA w) (fieldB w)))
  | 0x25 => formatR2 w (.ok (.finv (fieldA w) (fieldB w)))
  | 0x26 => formatR3 w (.ok (.fpow (fieldA w) (fieldB w) (fieldC w)))
  | 0x27 => formatR2 w (.ok (.feq (fieldA w) (fieldB w)))
  | 0x30 => formatR3 w (withPReg (fieldA w) fun pd => .ok (.pset pd (fieldB w) (fieldC w)))
  | 0x31 => formatR1 w (withPReg (fieldA w) fun pd => .ok (.pinf pd))
  | 0x32 => formatR1 w (withPReg (fieldA w) fun pd => .ok (.pgen pd))
  | 0x33 => formatR2 w (withPReg (fieldA w) fun pd => withPReg (fieldB w) fun ps => .ok (.pmov pd ps))
  | 0x34 => formatR2 w (withPReg (fieldB w) fun ps => .ok (.pgetx (fieldA w) ps))
  | 0x35 => formatR2 w (withPReg (fieldB w) fun ps => .ok (.pgety (fieldA w) ps))
  | 0x36 => formatR1 w (withPReg (fieldA w) fun ps => .ok (.pisinf ps))
  | 0x37 => formatR2 w (.ok (.ponc (fieldA w) (fieldB w)))
  | 0x38 => formatR2 w (withPReg (fieldA w) fun ps1 => withPReg (fieldB w) fun ps2 => .ok (.peq ps1 ps2))
  | 0x39 => formatR2 w (withPReg (fieldA w) fun pd => withPReg (fieldB w) fun ps => .ok (.pneg pd ps))
  | 0x3A => formatR3 w (withPReg (fieldA w) fun pd => withPReg (fieldB w) fun ps1 =>
      withPReg (fieldC w) fun ps2 => .ok (.padd pd ps1 ps2))
  | 0x3B => formatR2 w (withPReg (fieldA w) fun pd => withPReg (fieldB w) fun ps => .ok (.pdbl pd ps))
  | 0x3C => formatR3 w (withPReg (fieldA w) fun pd => withPReg (fieldC w) fun ps =>
      .ok (.smul pd (fieldB w) ps))
  | 0x40 => formatR1 w (if (fieldA w).val ≤ 13 then .ok (.poseidon (fieldA w)) else .error .poseidonBase)
  | 0x41 => formatR3 w (.ok (.pedersen (fieldA w) (fieldB w) (fieldC w)))
  | 0x50 => formatR4 w (withPReg (fieldD w) fun pk => .ok (.verify (fieldA w) (fieldB w) (fieldC w) pk))
  | 0x51 => formatR5 w (.ok (.verifyxy (fieldA w) (fieldB w) (fieldC w) (fieldD w) (fieldE w)))
  | 0x52 => formatR1 w (.ok (.schk (fieldA w)))
  | _ => .error .opcode

/-- The word with opcode `op`, register fields `a`, `b`, `c` and the low 12 bits `low` (30_encoding R71). -/
def pack (op a b c low : Nat) : Word :=
  BitVec.ofNat 32 (op * 2 ^ 24 + a * 2 ^ 20 + b * 2 ^ 16 + c * 2 ^ 12 + low)

/-- The encoder: the one word of a command (30_encoding R71, R75). -/
def encode : Instr → Word
  | .nop => pack 0x00 0 0 0 0
  | .clrerr => pack 0x01 0 0 0 0
  | .lde rd slot => pack 0x10 rd.val 0 0 slot.val
  | .ste rs slot => pack 0x11 rs.val 0 0 slot.val
  | .fli rd imm => pack 0x12 rd.val 0 0 imm.val
  | .fmov rd rs => pack 0x13 rd.val rs.val 0 0
  | .fadd rd rs1 rs2 => pack 0x20 rd.val rs1.val rs2.val 0
  | .fsub rd rs1 rs2 => pack 0x21 rd.val rs1.val rs2.val 0
  | .fneg rd rs => pack 0x22 rd.val rs.val 0 0
  | .fmul rd rs1 rs2 => pack 0x23 rd.val rs1.val rs2.val 0
  | .fsqr rd rs => pack 0x24 rd.val rs.val 0 0
  | .finv rd rs => pack 0x25 rd.val rs.val 0 0
  | .fpow rd rs1 rs2 => pack 0x26 rd.val rs1.val rs2.val 0
  | .feq rs1 rs2 => pack 0x27 rs1.val rs2.val 0 0
  | .pset pd rsx rsy => pack 0x30 pd.val rsx.val rsy.val 0
  | .pinf pd => pack 0x31 pd.val 0 0 0
  | .pgen pd => pack 0x32 pd.val 0 0 0
  | .pmov pd ps => pack 0x33 pd.val ps.val 0 0
  | .pgetx rd ps => pack 0x34 rd.val ps.val 0 0
  | .pgety rd ps => pack 0x35 rd.val ps.val 0 0
  | .pisinf ps => pack 0x36 ps.val 0 0 0
  | .ponc rsx rsy => pack 0x37 rsx.val rsy.val 0 0
  | .peq ps1 ps2 => pack 0x38 ps1.val ps2.val 0 0
  | .pneg pd ps => pack 0x39 pd.val ps.val 0 0
  | .padd pd ps1 ps2 => pack 0x3A pd.val ps1.val ps2.val 0
  | .pdbl pd ps => pack 0x3B pd.val ps.val 0 0
  | .smul pd rk ps => pack 0x3C pd.val rk.val ps.val 0
  | .poseidon rb => pack 0x40 rb.val 0 0 0
  | .pedersen rd rs1 rs2 => pack 0x41 rd.val rs1.val rs2.val 0
  | .verify rm rr rs pk => pack 0x50 rm.val rr.val rs.val (pk.val * 2 ^ 8)
  | .verifyxy rm rr rs rx ry => pack 0x51 rm.val rr.val rs.val (rx.val * 2 ^ 8 + ry.val * 2 ^ 4)
  | .schk rs => pack 0x52 rs.val 0 0 0

/-- The command word made of the low `nbits` bits of `w`, or nothing where they do not fit the one length a command
has, 32 bits (30_encoding R70). A command word is presented whole, so bit 0 of the table is bit 0 of the
word (20_memory R52; log entry 19). -/
def tableWord (nbits w : Nat) : Option Word :=
  if w % 2 ^ nbits < 2 ^ 32 then some (BitVec.ofNat 32 (w % 2 ^ nbits)) else none

/-- The command the decoder reads from a row's word, numbered as spec/opcode_table.json numbers its bits. -/
def decodeTableWord (nbits w : Nat) : Option Instr :=
  match tableWord nbits w with
  | some word =>
    match decode word with
    | .ok i => some i
    | .error _ => none
  | none => none

end Sys2Proof
end

