-- ==== Sys2Proof/Machine/State.lean ====
section
/-!
DEFINITION. The architectural state (spec/10_state.md R36), the transactions and answers of the interface (R21), the
error kinds (spec/60_exceptions.md R240), and the state after reset (R36; spec/70_reset_and_hazards.md R271).
-/

namespace Sys2Proof.Machine

/-- The error kinds (60_exceptions R240). -/
inductive ErrorKind where
  | invalidEncoding
  | divisionByZero
  | pointNotOnCurve
  | scalarOutOfRange
  | illegalCommand
  | pointIsIdentity
deriving DecidableEq, Repr

/-- The contents of the operand buffer as (address, byte) pairs, addresses strictly rising, no pair whose byte is what
an unlisted address reads as (20_memory R50; log entry 4). -/
abbrev Memory := List Host.Cell

/-- What the host does at the interface (10_state R21). `reset` carries what the 1024 bytes of the buffer happen to
hold afterwards: the spec leaves each of them arbitrary (10_state R36; log entry 4). -/
inductive Transaction where
  | reset (residue : Vector Byte 1024)
  | issue (w : Word)
  | bufWrite (a : Addr) (v : Byte)
  | bufRead (a : Addr)
  | csrRead (i : CsrIndex)
deriving DecidableEq, Repr

/-- What a read transaction returns (10_state R21). -/
inductive Answer where
  | byte (v : Byte)
  | csr (v : Word)
deriving DecidableEq, Repr

/-- The machine has no fault: every command is a total function of the state and `Params` (10_state R22), every host
address names a byte (20_memory R57), and an error is recorded, not stopped at (60_exceptions R249). So no
constructor is needed, and none is raised by anything (safe; log entry 14). -/
inductive Fault where
deriving DecidableEq, Repr

/-- Why the model has no meaning for a step. -/
inductive Refusal where
  /-- Raised by an arm of `exec` whose command has no meaning yet; no arm does (safe; log entry 14). -/
  | notModelled (mnemonic : String)
deriving DecidableEq, Repr

/-- The architectural state (10_state R36), the constant tables the step reads (10_state R32, R37; log entry 1),
and the model's own record of the interface: the transactions to come and the answers given (log entry 2). -/
structure State where
  /-- `Params`, read-only (10_state R32). -/
  params : Params
  /-- `E[0..15]` (10_state R23). -/
  e : Vector Felt 16
  /-- `Pt[0..7]` (10_state R25). -/
  pt : Vector Point 8
  /-- `FLAG` (10_state R27). -/
  flag : Bool
  /-- `LAST`, `none` for code 0 (10_state R28; log entry 7). -/
  last : Option ErrorKind
  /-- `ERR`, `none` for code 0 (10_state R29; log entry 7). -/
  err : Option ErrorKind
  /-- `ERRCMD` (10_state R30). -/
  errcmd : Word
  /-- `BUF` (10_state R34). -/
  buf : Memory
  /-- The transactions the host is going to make, oldest first (10_state R37; the model's own). -/
  pending : List Transaction
  /-- What the read transactions have returned, oldest first (10_state R21; the model's own). -/
  answers : List Answer
deriving DecidableEq, Repr

/-- The reset value of every component (10_state R36), for a block with the constant tables `p` and the buffer
contents `buf`. -/
def State.initial (p : Params) (buf : Memory) : State where
  params := p
  e := Vector.replicate 16 0
  pt := Vector.replicate 8 .identity
  flag := false
  last := none
  err := none
  errcmd := 0#32
  buf := buf
  pending := []
  answers := []

/-- The machine right after reset (10_state R36): the constant tables have the value the source withholds (log entry
1), the buffer, whose contents the spec leaves open, lists nothing (log entry 4), the host has made no
transaction (log entry 2). -/
def State.reset : State := State.initial Config.params []

end Sys2Proof.Machine
end

