-- ==== Sys2Proof/Machine/Ops.lean ====
section
/-!
DEFINITION. The named operations over buffer and registers, and the shared end of every command: error entry
(spec/60_exceptions.md R244), completion (R245), and the choice between them (spec/10_state.md R22).
-/

namespace Sys2Proof.Machine

/-- What an address reads as that the buffer does not list: a fixed byte, since the spec gives the reset contents no
value (10_state R36; DESIGN CHOICE, log entry 4). -/
def unlisted : Byte := 0#8

/-- `BUF[a]` (20_memory R53). -/
def Memory.read : Memory → Nat → Byte
  | [], _ => unlisted
  | (b, x) :: m, a => if a = b then x else Memory.read m a

/-- `BUF[a] <- v` (20_memory R53), keeping the canonical form. -/
def Memory.write : Memory → Nat → Byte → Memory
  | [], a, v => if v = unlisted then [] else [(a, v)]
  | (b, x) :: m, a, v =>
    if a < b then (if v = unlisted then (b, x) :: m else (a, v) :: (b, x) :: m)
    else if a = b then (if v = unlisted then m else (a, v) :: m)
    else (b, x) :: Memory.write m a v

/-- `MemRead(addr, n)`: `n` bytes, lowest address first (00_scope R12). -/
def Memory.readBytes (m : Memory) (addr n : Nat) : List Byte :=
  (List.range n).map fun k => Memory.read m (addr + k)

/-- `MemWrite(addr, n, bytes)` for the `n` bytes of the list, lowest address first (00_scope R12). -/
def Memory.writeBytes : Memory → Nat → List Byte → Memory
  | m, _, [] => m
  | m, addr, v :: vs => Memory.writeBytes (Memory.write m addr v) (addr + 1) vs

/-- The canonical form, for addresses from `lo` up. -/
def Memory.wfFrom : Nat → Memory → Bool
  | _, [] => true
  | lo, (a, v) :: m => decide (lo ≤ a) && decide (a < 1024) && decide (v ≠ unlisted) && Memory.wfFrom (a + 1) m

/-- The canonical form: addresses of the buffer (20_memory R50), strictly rising, no byte that an unlisted
address reads as. -/
def Memory.wf (m : Memory) : Bool := Memory.wfFrom 0 m

/-- The buffer that holds exactly the given 1024 bytes (10_state R36). -/
def Memory.ofBytes (bytes : Vector Byte 1024) : Memory := Memory.writeBytes [] 0 bytes.toList

/-- `E[i]` (00_scope R12). -/
def State.getE (s : State) (i : EReg) : Felt := s.e[i]

/-- `E[i] <- v` (00_scope R12). -/
def State.setE (s : State) (i : EReg) (v : Felt) : State := { s with e := s.e.set i v }

/-- `Pt[i]` (00_scope R12). -/
def State.getPt (s : State) (i : PReg) : Point := s.pt[i]

/-- `Pt[i] <- q` (00_scope R12). -/
def State.setPt (s : State) (i : PReg) (q : Point) : State := { s with pt := s.pt.set i q }

/-- `FLAG <- b` (00_scope R12). -/
def State.setFlag (s : State) (b : Bool) : State := { s with flag := b }

/-- The buffer after a store. -/
def State.setBuf (s : State) (m : Memory) : State := { s with buf := m }

/-- The 4-bit code of an error kind (60_exceptions R240). -/
def ErrorKind.code : ErrorKind → Nat
  | .invalidEncoding => 1
  | .divisionByZero => 2
  | .pointNotOnCurve => 3
  | .scalarOutOfRange => 4
  | .illegalCommand => 5
  | .pointIsIdentity => 6

/-- The 4-bit code `LAST` and `ERR` hold: 0 for no error (60_exceptions R240). -/
def codeOf : Option ErrorKind → Nat
  | none => 0
  | some k => k.code

/-- Error entry, the meaning of `raise k` in a command issued as word `w` (60_exceptions R244): `LAST` takes the
code, the first error since the last acknowledgement is latched with its command word, nothing else changes. -/
def State.raise (s : State) (k : ErrorKind) (w : Word) : State :=
  match s.err with
  | none => { s with last := some k, err := some k, errcmd := w }
  | some _ => { s with last := some k }

/-- Completion without error (60_exceptions R245). -/
def State.complete (s : State) : State := { s with last := none }

/-- Acknowledging the recorded error, the "return" of the error mechanism (60_exceptions R248, 46_system R231). -/
def State.acknowledge (s : State) : State := { s with err := none, errcmd := 0#32 }

/-- The end of a command step (10_state R22): a command that raised an error enters it from the state BEFORE the
command, with the command's own word; any other command keeps its writes and completes. The word of a legal command
is its encoding, the one word that decodes to it (log entry 8). -/
def settle (i : Instr) (s : State) (effect : Except ErrorKind State) : Host.Outcome State Fault Refusal :=
  .next (match effect with
    | .ok t => t.complete
    | .error k => s.raise k (encode i))

end Sys2Proof.Machine
end

