-- ==== Sys2Proof/Machine/SignatureUnit.lean ====
section
/-!
DEFINITION. Signature verification as pure functions (spec/45_signature.md R210 to R216).
-/

namespace Sys2Proof.Machine

/-- `nmul(a, b) = (a * b) mod N` (45_signature R211). -/
def nmul (p : Params) (a b : Nat) : Nat := a * b % p.n

/-- `ninv(s) = s^(N-2) mod N`, the inverse modulo the prime `N` (45_signature R211; log entry 9). -/
def ninv (p : Params) (s : Nat) : Nat := powMod p.n s (p.n - 2)

/-- A signature component in `[1, N-1]` (45_signature R210). -/
def componentInRange (p : Params) (v : Felt) : Bool := decide (v.val ≠ 0) && decide (v.val < p.n)

/-- The verification point `u1*G + u2*Q` for message `m` and signature `(r, s)` (45_signature R212, steps 3 to 5). -/
def verifyPoint (p : Params) (m r s : Felt) (q : Point) : Point :=
  let w := ninv p s.val
  padd p (smul p (nmul p m.val w) p.generator) (smul p (nmul p r.val w) q)

/-- Whether a point is affine with `x mod N = r` (45_signature R212, step 7; `false` for `Identity`, step 6). -/
def acceptsR (p : Params) (r : Felt) : Point → Bool
  | .identity => false
  | .affine x _ => decide (x.val % p.n = r.val)

/-- The point arithmetic of verification: steps 3 to 9 of 45_signature R212. -/
def verifyArith (p : Params) (m r s : Felt) (q : Point) : Bool :=
  match verifyPoint p m r s q with
  | .identity => false
  | .affine x _ =>
    decide (x.val % p.n = r.val) || (p.sigAlt && acceptsR p r (verifyPoint p m r s (pneg q)))

/-- `verify(m, r, s, Q)` (45_signature R212; the step with `SIG_ALT` is R216). -/
def verify (p : Params) (m r s : Felt) (q : Point) : Bool :=
  if componentInRange p r && componentInRange p s then
    match q with
    | .identity => false
    | .affine xq yq => verifyArith p m r s (.affine xq yq)
  else false

/-- What `VERIFYXY` answers: the same, with the on-curve test of the raw coordinates in place of the identity test
(45_signature R218). -/
def verifyXY (p : Params) (m r s xq yq : Felt) : Bool :=
  if componentInRange p r && componentInRange p s then
    if onCurve p xq yq then verify p m r s (.affine xq yq) else false
  else false

end Sys2Proof.Machine
end

