-- ==== Sys2Proof/Machine/Operands.lean ====
section
/-!
DEFINITION. The operand forms of the commands: element encodings in buffer slots (spec/41_loadstore.md R140, R141, R145),
immediates (spec/30_encoding.md R74), coordinates of a point (spec/42_curve.md R174, R175), scalars (R182), signature
components (spec/45_signature.md R215), and the three registers of a permutation state (spec/43_poseidon.md R195).
-/

namespace Sys2Proof.Machine

/-- The big-endian integer of a list of bytes, first byte most significant (20_memory R52, 41_loadstore R140). -/
def bigEndian (bytes : List Byte) : Nat := bytes.foldl (fun v b => v * 256 + b.toNat) 0

/-- `decode32(bytes)`: the integer the bytes encode, when it is below `P` (41_loadstore R140). -/
def decode32 (bytes : List Byte) : Except ErrorKind Felt :=
  if h : bigEndian bytes < P then .ok ⟨bigEndian bytes, h⟩ else .error .invalidEncoding

/-- `bytes[k] = (v >> (8*(31-k))) mod 256` for `k = 0..31` (41_loadstore R141, 30_encoding R79). -/
def bytes32 (v : Nat) : List Byte := (List.range 32).map fun k => BitVec.ofNat 8 (v / 2 ^ (8 * (31 - k)))

/-- `encode32(a)` (41_loadstore R141). -/
def encode32 (a : Felt) : List Byte := bytes32 a.val

/-- The byte address of a slot, `32 * slot` (20_memory R51, 41_loadstore R145). -/
def slotAddr (slot : Slot) : Nat := 32 * slot.val

/-- The element a slot holds, or `InvalidEncoding` (41_loadstore R142). -/
def loadSlot (m : Memory) (slot : Slot) : Except ErrorKind Felt := decode32 (m.readBytes (slotAddr slot) 32)

/-- The buffer with a slot holding the encoding of an element (41_loadstore R143). -/
def storeSlot (m : Memory) (slot : Slot) (v : Felt) : Memory := m.writeBytes (slotAddr slot) (encode32 v)

/-- `zext_252(imm12)` (30_encoding R74). -/
def immValue (imm : Imm12) : Felt := reduceP imm.val

/-- The x-coordinate of a point, or `PointIsIdentity` (42_curve R174, 44_pedersen R202). -/
def pointX : Point → Except ErrorKind Felt
  | .identity => .error .pointIsIdentity
  | .affine x _ => .ok x

/-- The y-coordinate of a point, or `PointIsIdentity` (42_curve R175). -/
def pointY : Point → Except ErrorKind Felt
  | .identity => .error .pointIsIdentity
  | .affine _ y => .ok y

/-- The point of a coordinate pair, or `PointNotOnCurve` (42_curve R170). -/
def checkedPoint (p : Params) (x y : Felt) : Except ErrorKind Point :=
  if onCurve p x y then .ok (.affine x y) else .error .pointNotOnCurve

/-- The scalar an element holds, used as the integer it is, or `ScalarOutOfRange` when it is `>= N`
(42_curve R182). -/
def scalarOperand (p : Params) (v : Felt) : Except ErrorKind Nat :=
  if v.val < p.n then .ok v.val else .error .scalarOutOfRange

/-- The range check of a signature component: `[1, N-1]`, or `ScalarOutOfRange` (45_signature R215). -/
def checkComponent (p : Params) (v : Felt) : Except ErrorKind Unit :=
  if componentInRange p v then .ok () else .error .scalarOutOfRange

/-- The state `(E[rb], E[rb+1], E[rb+2])` (43_poseidon R195). -/
def getState3 (s : State) (rb : EReg) (h : rb.val ≤ 13) : State3 :=
  ⟨s.getE rb, s.getE ⟨rb.val + 1, by omega⟩, s.getE ⟨rb.val + 2, by omega⟩⟩

/-- `E[rb] <- t[0]; E[rb+1] <- t[1]; E[rb+2] <- t[2]` (43_poseidon R195). -/
def setState3 (s : State) (rb : EReg) (h : rb.val ≤ 13) (t : State3) : State :=
  ((s.setE rb t.s0).setE ⟨rb.val + 1, by omega⟩ t.s1).setE ⟨rb.val + 2, by omega⟩ t.s2

end Sys2Proof.Machine
end

