-- ==== Sys2Proof/Machine/Flags.lean ====
section
/-!
DEFINITION. The values the six predicate commands give `FLAG` (spec/10_state.md R27). There is no other condition
code.
-/

namespace Sys2Proof.Machine

/-- `FEQ`: equality of two elements (40_field R119). -/
def flagFeq (a b : Felt) : Bool := decide (a = b)

/-- `PISINF`: whether a point is the identity (42_curve R176). -/
def flagIsIdentity : Point → Bool
  | .identity => true
  | .affine _ _ => false

/-- `PONC`: whether a pair is on the curve (42_curve R177). -/
def flagOnCurve (p : Params) (x y : Felt) : Bool := onCurve p x y

/-- `PEQ`: equality of two points (42_curve R178). -/
def flagPeq (a b : Point) : Bool := peq a b

/-- `VERIFY`: whether a signature verifies against a point (45_signature R217). -/
def flagVerify (p : Params) (m r s : Felt) (q : Point) : Bool := verify p m r s q

/-- `VERIFYXY`: whether a signature verifies against raw coordinates (45_signature R218). -/
def flagVerifyXY (p : Params) (m r s xq yq : Felt) : Bool := verifyXY p m r s xq yq

end Sys2Proof.Machine
end

