-- ==== Sys2Proof/Machine/Curve.lean ====
section
/-!
DEFINITION. The curve commands (spec/42_curve.md R170 to R182).
-/

namespace Sys2Proof.Machine

/-- `PSET pd, rsx, rsy`: make a point, `PointNotOnCurve` off the curve (42_curve R170). -/
def execPset (pd : PReg) (rsx rsy : EReg) (s : State) : Host.Outcome State Fault Refusal :=
  settle (.pset pd rsx rsy) s
    ((checkedPoint s.params (s.getE rsx) (s.getE rsy)).map fun q => s.setPt pd q)

/-- `PINF pd`: set the identity (42_curve R171). -/
def execPinf (pd : PReg) (s : State) : Host.Outcome State Fault Refusal :=
  settle (.pinf pd) s (.ok (s.setPt pd .identity))

/-- `PGEN pd`: load the generator (42_curve R172). -/
def execPgen (pd : PReg) (s : State) : Host.Outcome State Fault Refusal :=
  settle (.pgen pd) s (.ok (s.setPt pd s.params.generator))

/-- `PMOV pd, ps`: copy a point (42_curve R173). -/
def execPmov (pd ps : PReg) (s : State) : Host.Outcome State Fault Refusal :=
  settle (.pmov pd ps) s (.ok (s.setPt pd (s.getPt ps)))

/-- `PGETX rd, ps`: read the x-coordinate, `PointIsIdentity` of the identity (42_curve R174). -/
def execPgetx (rd : EReg) (ps : PReg) (s : State) : Host.Outcome State Fault Refusal :=
  settle (.pgetx rd ps) s ((pointX (s.getPt ps)).map fun x => s.setE rd x)

/-- `PGETY rd, ps`: read the y-coordinate, `PointIsIdentity` of the identity (42_curve R175). -/
def execPgety (rd : EReg) (ps : PReg) (s : State) : Host.Outcome State Fault Refusal :=
  settle (.pgety rd ps) s ((pointY (s.getPt ps)).map fun y => s.setE rd y)

/-- `PISINF ps`: test for the identity (42_curve R176). -/
def execPisinf (ps : PReg) (s : State) : Host.Outcome State Fault Refusal :=
  settle (.pisinf ps) s (.ok (s.setFlag (flagIsIdentity (s.getPt ps))))

/-- `PONC rsx, rsy`: membership test without error (42_curve R177). -/
def execPonc (rsx rsy : EReg) (s : State) : Host.Outcome State Fault Refusal :=
  settle (.ponc rsx rsy) s (.ok (s.setFlag (flagOnCurve s.params (s.getE rsx) (s.getE rsy))))

/-- `PEQ ps1, ps2`: point equality (42_curve R178). -/
def execPeq (ps1 ps2 : PReg) (s : State) : Host.Outcome State Fault Refusal :=
  settle (.peq ps1 ps2) s (.ok (s.setFlag (flagPeq (s.getPt ps1) (s.getPt ps2))))

/-- `PNEG pd, ps`: point negation (42_curve R179). -/
def execPneg (pd ps : PReg) (s : State) : Host.Outcome State Fault Refusal :=
  settle (.pneg pd ps) s (.ok (s.setPt pd (pneg (s.getPt ps))))

/-- `PADD pd, ps1, ps2`: point addition (42_curve R180). -/
def execPadd (pd ps1 ps2 : PReg) (s : State) : Host.Outcome State Fault Refusal :=
  settle (.padd pd ps1 ps2) s (.ok (s.setPt pd (padd s.params (s.getPt ps1) (s.getPt ps2))))

/-- `PDBL pd, ps`: point doubling (42_curve R181). -/
def execPdbl (pd ps : PReg) (s : State) : Host.Outcome State Fault Refusal :=
  settle (.pdbl pd ps) s (.ok (s.setPt pd (pdbl s.params (s.getPt ps))))

/-- `SMUL pd, rk, ps`: scalar multiplication, `ScalarOutOfRange` for a scalar `>= N` (42_curve R182). -/
def execSmul (pd : PReg) (rk : EReg) (ps : PReg) (s : State) : Host.Outcome State Fault Refusal :=
  settle (.smul pd rk ps) s
    ((scalarOperand s.params (s.getE rk)).map fun k => s.setPt pd (smul s.params k (s.getPt ps)))

end Sys2Proof.Machine
end

