-- ==== Sys2Proof/Machine/Field.lean ====
section
/-!
DEFINITION. The field commands (spec/40_field.md R110 to R119).
-/

namespace Sys2Proof.Machine

/-- `FLI rd, imm12`: load a small constant (40_field R110). -/
def execFli (rd : EReg) (imm : Imm12) (s : State) : Host.Outcome State Fault Refusal :=
  settle (.fli rd imm) s (.ok (s.setE rd (immValue imm)))

/-- `FMOV rd, rs`: copy (40_field R111). -/
def execFmov (rd rs : EReg) (s : State) : Host.Outcome State Fault Refusal :=
  settle (.fmov rd rs) s (.ok (s.setE rd (s.getE rs)))

/-- `FADD rd, rs1, rs2`: field addition (40_field R112). -/
def execFadd (rd rs1 rs2 : EReg) (s : State) : Host.Outcome State Fault Refusal :=
  settle (.fadd rd rs1 rs2) s (.ok (s.setE rd (fadd (s.getE rs1) (s.getE rs2))))

/-- `FSUB rd, rs1, rs2`: field subtraction, the minuend is `rs1` (40_field R113). -/
def execFsub (rd rs1 rs2 : EReg) (s : State) : Host.Outcome State Fault Refusal :=
  settle (.fsub rd rs1 rs2) s (.ok (s.setE rd (fsub (s.getE rs1) (s.getE rs2))))

/-- `FNEG rd, rs`: field negation (40_field R114). -/
def execFneg (rd rs : EReg) (s : State) : Host.Outcome State Fault Refusal :=
  settle (.fneg rd rs) s (.ok (s.setE rd (fneg (s.getE rs))))

/-- `FMUL rd, rs1, rs2`: field multiplication (40_field R115). -/
def execFmul (rd rs1 rs2 : EReg) (s : State) : Host.Outcome State Fault Refusal :=
  settle (.fmul rd rs1 rs2) s (.ok (s.setE rd (fmul (s.getE rs1) (s.getE rs2))))

/-- `FSQR rd, rs`: field squaring (40_field R116). -/
def execFsqr (rd rs : EReg) (s : State) : Host.Outcome State Fault Refusal :=
  settle (.fsqr rd rs) s (.ok (s.setE rd (fsqr (s.getE rs))))

/-- `FINV rd, rs`: field inversion, `DivisionByZero` of 0 (40_field R117). -/
def execFinv (rd rs : EReg) (s : State) : Host.Outcome State Fault Refusal :=
  settle (.finv rd rs) s
    (if (s.getE rs).val = 0 then .error .divisionByZero else .ok (s.setE rd (finv (s.getE rs))))

/-- `FPOW rd, rs1, rs2`: field exponentiation, the exponent used as the plain integer `E[rs2]` is
(40_field R118). -/
def execFpow (rd rs1 rs2 : EReg) (s : State) : Host.Outcome State Fault Refusal :=
  settle (.fpow rd rs1 rs2) s (.ok (s.setE rd (fpow (s.getE rs1) (s.getE rs2).val)))

/-- `FEQ rs1, rs2`: field equality test (40_field R119). -/
def execFeq (rs1 rs2 : EReg) (s : State) : Host.Outcome State Fault Refusal :=
  settle (.feq rs1 rs2) s (.ok (s.setFlag (flagFeq (s.getE rs1) (s.getE rs2))))

end Sys2Proof.Machine
end

