-- ==== Sys2Proof/Machine/PedersenUnit.lean ====
section
/-!
DEFINITION. The Pedersen hash as pure functions (spec/44_pedersen.md R200, R201). The constant points are fields of
`Params`.
-/

namespace Sys2Proof.Machine

/-- The low chunk: bits 247..0 (44_pedersen R200). -/
def lowChunk (v : Felt) : Nat := v.val % 2 ^ 248

/-- The high chunk: bits 251..248 (44_pedersen R200). -/
def highChunk (v : Felt) : Nat := v.val / 2 ^ 248

/-- The accumulated point, added left to right (44_pedersen R201). -/
def pedersenPoint (p : Params) (x y : Felt) : Point :=
  let a0 := p.pedShift.point
  let a1 := padd p a0 (smul p (lowChunk x) p.pedP1.point)
  let a2 := padd p a1 (smul p (highChunk x) p.pedP2.point)
  let a3 := padd p a2 (smul p (lowChunk y) p.pedP3.point)
  padd p a3 (smul p (highChunk y) p.pedP4.point)

end Sys2Proof.Machine
end

