-- ==== Sys2Proof/Machine/PoseidonUnit.lean ====
section
/-!
DEFINITION. The Poseidon permutation as pure functions (spec/43_poseidon.md R190 to R194). The round constants and the
matrix are fields of `Params`.
-/

namespace Sys2Proof.Machine

/-- One row of the matrix times the state: `(row[0]*s[0] + row[1]*s[1] + row[2]*s[2]) mod P` (43_poseidon R191). -/
def rowTimes (row s : State3) : Felt :=
  reduceP (row.s0.val * s.s0.val + row.s1.val * s.s1.val + row.s2.val * s.s2.val)

/-- The linear layer: the matrix times the state as a column vector (43_poseidon R191). -/
def mix (m : Matrix3) (s : State3) : State3 := ⟨rowTimes m.row0 s, rowTimes m.row1 s, rowTimes m.row2 s⟩

/-- The S-box `x -> x^3` (43_poseidon R192). -/
def sbox (u : Felt) : Felt := fmul (fsqr u) u

/-- A full round with the row of constants `c` (43_poseidon R192). -/
def fullRound (m : Matrix3) (s c : State3) : State3 :=
  mix m ⟨sbox (fadd s.s0 c.s0), sbox (fadd s.s1 c.s1), sbox (fadd s.s2 c.s2)⟩

/-- A partial round with the constant `c`: it acts on the first element, index 0 (43_poseidon R193; log entry 10). -/
def partialRound (m : Matrix3) (s : State3) (c : Felt) : State3 := mix m ⟨sbox (fadd s.s0 c), s.s1, s.s2⟩

/-- The permutation: the initial full rounds, the partial rounds, the final full rounds, each with its row of
constants in order (43_poseidon R194; log entry 6). -/
def hades (p : Params) (s : State3) : State3 :=
  let s := p.posFull1.foldl (fullRound p.posM) s
  let s := p.posPartial.foldl (partialRound p.posM) s
  p.posFull2.foldl (fullRound p.posM) s

end Sys2Proof.Machine
end

