-- ==== Sys2Proof/Machine/Hash.lean ====
section
/-!
DEFINITION. The hash commands (spec/43_poseidon.md R195, spec/44_pedersen.md R202).
-/

namespace Sys2Proof.Machine

/-- `POSEIDON rb`: permute three consecutive registers in place (43_poseidon R195). A base above 13 is no command
(30_encoding R76 step 4), and raises what such a word raises (60_exceptions R243; log entry 16). -/
def execPoseidon (rb : EReg) (s : State) : Host.Outcome State Fault Refusal :=
  settle (.poseidon rb) s
    (if h : rb.val ≤ 13 then .ok (setState3 s rb h (hades s.params (getState3 s rb h)))
     else .error .illegalCommand)

/-- `PEDERSEN rd, rs1, rs2`: two-input hash, `PointIsIdentity` when the sum has no x-coordinate
(44_pedersen R202). -/
def execPedersen (rd rs1 rs2 : EReg) (s : State) : Host.Outcome State Fault Refusal :=
  settle (.pedersen rd rs1 rs2) s
    ((pointX (pedersenPoint s.params (s.getE rs1) (s.getE rs2))).map fun x => s.setE rd x)

end Sys2Proof.Machine
end

