-- ==== Sys2Proof/Machine/LoadStore.lean ====
section
/-!
DEFINITION. Element load and store (spec/41_loadstore.md R142, R143).
-/

namespace Sys2Proof.Machine

/-- `LDE rd, [slot]`: load element (41_loadstore R142). -/
def execLde (rd : EReg) (slot : Slot) (s : State) : Host.Outcome State Fault Refusal :=
  settle (.lde rd slot) s ((loadSlot s.buf slot).map fun v => s.setE rd v)

/-- `STE rs, [slot]`: store element (41_loadstore R143). -/
def execSte (rs : EReg) (slot : Slot) (s : State) : Host.Outcome State Fault Refusal :=
  settle (.ste rs slot) s (.ok (s.setBuf (storeSlot s.buf slot (s.getE rs))))

end Sys2Proof.Machine
end

