-- ==== Sys2Proof/Machine/Signature.lean ====
section
/-!
DEFINITION. The signature commands (spec/45_signature.md R215, R217, R218).
-/

namespace Sys2Proof.Machine

/-- `VERIFY rm, rr, rs, pk`: verify against a P register (45_signature R217). -/
def execVerify (rm rr rs : EReg) (pk : PReg) (s : State) : Host.Outcome State Fault Refusal :=
  settle (.verify rm rr rs pk) s
    (.ok (s.setFlag (flagVerify s.params (s.getE rm) (s.getE rr) (s.getE rs) (s.getPt pk))))

/-- `VERIFYXY rm, rr, rs, rx, ry`: verify against raw coordinates (45_signature R218). -/
def execVerifyxy (rm rr rs rx ry : EReg) (s : State) : Host.Outcome State Fault Refusal :=
  settle (.verifyxy rm rr rs rx ry) s
    (.ok (s.setFlag
      (flagVerifyXY s.params (s.getE rm) (s.getE rr) (s.getE rs) (s.getE rx) (s.getE ry))))

/-- `SCHK rs`: range check of one signature component (45_signature R215). -/
def execSchk (rs : EReg) (s : State) : Host.Outcome State Fault Refusal :=
  settle (.schk rs) s ((checkComponent s.params (s.getE rs)).map fun _ => s)

end Sys2Proof.Machine
end

