-- ==== Sys2Proof/Machine/System.lean ====
section
/-!
DEFINITION. The system commands (spec/46_system.md R230, R231).
-/

namespace Sys2Proof.Machine

/-- `NOP` (46_system R230). -/
def execNop (s : State) : Host.Outcome State Fault Refusal := settle .nop s (.ok s)

/-- `CLRERR`: acknowledge the recorded error (46_system R231). -/
def execClrerr (s : State) : Host.Outcome State Fault Refusal := settle .clrerr s (.ok s.acknowledge)

end Sys2Proof.Machine
end

