-- ==== Sys2Proof/Machine/Dispatch.lean ====
section
/-!
DEFINITION. The one match over the commands: each arm calls its command's meaning.
-/

namespace Sys2Proof.Machine

def exec (i : Instr) (s : State) : Host.Outcome State Fault Refusal :=
  match i with
  | .nop => Sys2Proof.Machine.execNop s
  | .clrerr => Sys2Proof.Machine.execClrerr s
  | .lde rd slot => Sys2Proof.Machine.execLde rd slot s
  | .ste rs slot => Sys2Proof.Machine.execSte rs slot s
  | .fli rd imm => Sys2Proof.Machine.execFli rd imm s
  | .fmov rd rs => Sys2Proof.Machine.execFmov rd rs s
  | .fadd rd rs1 rs2 => Sys2Proof.Machine.execFadd rd rs1 rs2 s
  | .fsub rd rs1 rs2 => Sys2Proof.Machine.execFsub rd rs1 rs2 s
  | .fneg rd rs => Sys2Proof.Machine.execFneg rd rs s
  | .fmul rd rs1 rs2 => Sys2Proof.Machine.execFmul rd rs1 rs2 s
  | .fsqr rd rs => Sys2Proof.Machine.execFsqr rd rs s
  | .finv rd rs => Sys2Proof.Machine.execFinv rd rs s
  | .fpow rd rs1 rs2 => Sys2Proof.Machine.execFpow rd rs1 rs2 s
  | .feq rs1 rs2 => Sys2Proof.Machine.execFeq rs1 rs2 s
  | .pset pd rsx rsy => Sys2Proof.Machine.execPset pd rsx rsy s
  | .pinf pd => Sys2Proof.Machine.execPinf pd s
  | .pgen pd => Sys2Proof.Machine.execPgen pd s
  | .pmov pd ps => Sys2Proof.Machine.execPmov pd ps s
  | .pgetx rd ps => Sys2Proof.Machine.execPgetx rd ps s
  | .pgety rd ps => Sys2Proof.Machine.execPgety rd ps s
  | .pisinf ps => Sys2Proof.Machine.execPisinf ps s
  | .ponc rsx rsy => Sys2Proof.Machine.execPonc rsx rsy s
  | .peq ps1 ps2 => Sys2Proof.Machine.execPeq ps1 ps2 s
  | .pneg pd ps => Sys2Proof.Machine.execPneg pd ps s
  | .padd pd ps1 ps2 => Sys2Proof.Machine.execPadd pd ps1 ps2 s
  | .pdbl pd ps => Sys2Proof.Machine.execPdbl pd ps s
  | .smul pd rk ps => Sys2Proof.Machine.execSmul pd rk ps s
  | .poseidon rb => Sys2Proof.Machine.execPoseidon rb s
  | .pedersen rd rs1 rs2 => Sys2Proof.Machine.execPedersen rd rs1 rs2 s
  | .verify rm rr rs pk => Sys2Proof.Machine.execVerify rm rr rs pk s
  | .verifyxy rm rr rs rx ry => Sys2Proof.Machine.execVerifyxy rm rr rs rx ry s
  | .schk rs => Sys2Proof.Machine.execSchk rs s

end Sys2Proof.Machine
end

