-- ==== Sys2Proof/Machine/Transact.lean ====
section
/-!
DEFINITION. What each transaction of the interface does (spec/10_state.md R21, R22, R31; spec/20_memory.md R53;
spec/70_reset_and_hazards.md R271), and the step of the machine over the host's transactions.
-/

namespace Sys2Proof.Machine

/-- `Issue(w)`: decode the word; a legal command executes, any other word raises `IllegalCommand`
(10_state R22, 60_exceptions R243). -/
def issue (w : Word) (s : State) : Host.Outcome State Fault Refusal :=
  match decode w with
  | .ok i => exec i s
  | .error _ => .next (s.raise .illegalCommand w)

/-- `STATUS`: `FLAG` in bit 0, `LAST` in bits 7..4, `ERR` in bits 11..8 (10_state R31). -/
def statusWord (s : State) : Word :=
  BitVec.ofNat 32 (codeOf s.err * 2 ^ 8 + codeOf s.last * 2 ^ 4 + s.flag.toNat)

/-- What `CsrRead(i)` returns (10_state R31). -/
def csrValue (s : State) (i : CsrIndex) : Word :=
  match i.val with
  | 0 => statusWord s
  | 1 => s.errcmd
  | 2 => Config.idValue
  | _ => 0#32

/-- What `BufRead(a)` returns (20_memory R53). -/
def bufValue (s : State) (a : Addr) : Byte := s.buf.read a.val

/-- The answer to a read transaction goes to the host, and nothing else changes (10_state R21). -/
def State.reply (s : State) (x : Answer) : State := { s with answers := s.answers ++ [x] }

/-- `Reset`: every component takes its reset value, the buffer holds the residue, the constant tables stay
(10_state R36, 70_reset R271). What the host is going to do, and what it was told, is the host's own. -/
def State.afterReset (s : State) (residue : Vector Byte 1024) : State :=
  { State.initial s.params (Memory.ofBytes residue) with pending := s.pending, answers := s.answers }

/-- One transaction, made by the host in state `s` (10_state R21). -/
def transact (t : Transaction) (s : State) : Host.Outcome State Fault Refusal :=
  match t with
  | .reset residue => .next (s.afterReset residue)
  | .issue w => issue w s
  | .bufWrite a v => .next (s.setBuf (s.buf.write a.val v))
  | .bufRead a => .next (s.reply (.byte (bufValue s a)))
  | .csrRead i => .next (s.reply (.csr (csrValue s i)))

/-- The transactions of a list, made one after another (10_state R33: a program is such a list). -/
def transactAll : List Transaction → State → Host.Outcome State Fault Refusal
  | [], s => .next s
  | x :: rest, s =>
    match transact x s with
    | .next t => transactAll rest t
    | .fault r => .fault r
    | .refused r => .refused r

/-- The first pending transaction is made. With none pending the block holds its state (60_exceptions R257; log
entry 3). -/
def advance (s : State) : Host.Outcome State Fault Refusal :=
  match s.pending with
  | [] => .next s
  | t :: rest => transact t { s with pending := rest }

/-- The state in which the host is about to present the command word first. -/
def present (s : State) (w : Word) : State := { s with pending := .issue w :: s.pending }

end Sys2Proof.Machine
end

