-- ==== Sys2Proof/Machine/Step.lean ====
section
/-!
DEFINITION. The step of the machine: one transaction of the interface (spec/10_state.md R21, R22).
-/

namespace Sys2Proof.Machine

/-- One step: the next transaction the host makes. -/
def step (s : State) : Host.Outcome State Fault Refusal := advance s

/-- The state whose very next step issues the command word made of the low `nbits` bits of `w`: the host presents it
before anything else it is going to do (log entry 2). A width that is not a command's presents the low 32 bits. -/
def State.withFetchWord (s : State) (nbits w : Nat) : State :=
  present s (match tableWord nbits w with
    | some word => word
    | none => BitVec.ofNat 32 w)

end Sys2Proof.Machine
end

