-- ==== Sys2Proof/Machine/Assembler.lean ====
section
/-!
DEFINITION. The host's side of the command set: the written form of a command and the transaction shorthands
(spec/30_encoding.md R79), and the pseudo-commands (R80).
-/

namespace Sys2Proof.Machine

/-- The mnemonic of a command (30_encoding R75). -/
def mnemonic : Instr → String
  | .nop => "NOP"
  | .clrerr => "CLRERR"
  | .lde _ _ => "LDE"
  | .ste _ _ => "STE"
  | .fli _ _ => "FLI"
  | .fmov _ _ => "FMOV"
  | .fadd _ _ _ => "FADD"
  | .fsub _ _ _ => "FSUB"
  | .fneg _ _ => "FNEG"
  | .fmul _ _ _ => "FMUL"
  | .fsqr _ _ => "FSQR"
  | .finv _ _ => "FINV"
  | .fpow _ _ _ => "FPOW"
  | .feq _ _ => "FEQ"
  | .pset _ _ _ => "PSET"
  | .pinf _ => "PINF"
  | .pgen _ => "PGEN"
  | .pmov _ _ => "PMOV"
  | .pgetx _ _ => "PGETX"
  | .pgety _ _ => "PGETY"
  | .pisinf _ => "PISINF"
  | .ponc _ _ => "PONC"
  | .peq _ _ => "PEQ"
  | .pneg _ _ => "PNEG"
  | .padd _ _ _ => "PADD"
  | .pdbl _ _ => "PDBL"
  | .smul _ _ _ => "SMUL"
  | .poseidon _ => "POSEIDON"
  | .pedersen _ _ _ => "PEDERSEN"
  | .verify _ _ _ _ => "VERIFY"
  | .verifyxy _ _ _ _ _ => "VERIFYXY"
  | .schk _ => "SCHK"

/-- The opcode map: mnemonic, `match`, `mask` of every row (30_encoding R75). -/
def opcodeMap : List (String × Word × Word) :=
  [("NOP", 0x00000000#32, 0xFFFFFFFF#32),
   ("CLRERR", 0x01000000#32, 0xFFFFFFFF#32),
   ("LDE", 0x10000000#32, 0xFF0FFFE0#32),
   ("STE", 0x11000000#32, 0xFF0FFFE0#32),
   ("FLI", 0x12000000#32, 0xFF0FF000#32),
   ("FMOV", 0x13000000#32, 0xFF00FFFF#32),
   ("FADD", 0x20000000#32, 0xFF000FFF#32),
   ("FSUB", 0x21000000#32, 0xFF000FFF#32)] ++
  [("FNEG", 0x22000000#32, 0xFF00FFFF#32),
   ("FMUL", 0x23000000#32, 0xFF000FFF#32),
   ("FSQR", 0x24000000#32, 0xFF00FFFF#32),
   ("FINV", 0x25000000#32, 0xFF00FFFF#32),
   ("FPOW", 0x26000000#32, 0xFF000FFF#32),
   ("FEQ", 0x27000000#32, 0xFF00FFFF#32),
   ("PSET", 0x30000000#32, 0xFF800FFF#32),
   ("PINF", 0x31000000#32, 0xFF8FFFFF#32)] ++
  [("PGEN", 0x32000000#32, 0xFF8FFFFF#32),
   ("PMOV", 0x33000000#32, 0xFF88FFFF#32),
   ("PGETX", 0x34000000#32, 0xFF08FFFF#32),
   ("PGETY", 0x35000000#32, 0xFF08FFFF#32),
   ("PISINF", 0x36000000#32, 0xFF8FFFFF#32),
   ("PONC", 0x37000000#32, 0xFF00FFFF#32),
   ("PEQ", 0x38000000#32, 0xFF88FFFF#32),
   ("PNEG", 0x39000000#32, 0xFF88FFFF#32)] ++
  [("PADD", 0x3A000000#32, 0xFF888FFF#32),
   ("PDBL", 0x3B000000#32, 0xFF88FFFF#32),
   ("SMUL", 0x3C000000#32, 0xFF808FFF#32),
   ("POSEIDON", 0x40000000#32, 0xFF0FFFFF#32),
   ("PEDERSEN", 0x41000000#32, 0xFF000FFF#32),
   ("VERIFY", 0x50000000#32, 0xFF0008FF#32),
   ("VERIFYXY", 0x51000000#32, 0xFF00000F#32),
   ("SCHK", 0x52000000#32, 0xFF0FFFFF#32)]

/-- An E register as written, `e0` to `e15` (30_encoding R79). -/
def eText (r : EReg) : String := "e" ++ toString r.val

/-- A P register as written, `p0` to `p7` (30_encoding R79). -/
def pText (r : PReg) : String := "p" ++ toString r.val

/-- A slot as written, its number in brackets (30_encoding R79). -/
def slotText (slot : Slot) : String := "[" ++ toString slot.val ++ "]"

/-- The operands of a command as written, in the order of its fields (30_encoding R79). -/
def operandTexts : Instr → List String
  | .nop => []
  | .clrerr => []
  | .lde rd slot => [eText rd, slotText slot]
  | .ste rs slot => [eText rs, slotText slot]
  | .fli rd imm => [eText rd, toString imm.val]
  | .fmov rd rs => [eText rd, eText rs]
  | .fadd rd rs1 rs2 => [eText rd, eText rs1, eText rs2]
  | .fsub rd rs1 rs2 => [eText rd, eText rs1, eText rs2]
  | .fneg rd rs => [eText rd, eText rs]
  | .fmul rd rs1 rs2 => [eText rd, eText rs1, eText rs2]
  | .fsqr rd rs => [eText rd, eText rs]
  | .finv rd rs => [eText rd, eText rs]
  | .fpow rd rs1 rs2 => [eText rd, eText rs1, eText rs2]
  | .feq rs1 rs2 => [eText rs1, eText rs2]
  | .pset pd rsx rsy => [pText pd, eText rsx, eText rsy]
  | .pinf pd => [pText pd]
  | .pgen pd => [pText pd]
  | .pmov pd ps => [pText pd, pText ps]
  | .pgetx rd ps => [eText rd, pText ps]
  | .pgety rd ps => [eText rd, pText ps]
  | .pisinf ps => [pText ps]
  | .ponc rsx rsy => [eText rsx, eText rsy]
  | .peq ps1 ps2 => [pText ps1, pText ps2]
  | .pneg pd ps => [pText pd, pText ps]
  | .padd pd ps1 ps2 => [pText pd, pText ps1, pText ps2]
  | .pdbl pd ps => [pText pd, pText ps]
  | .smul pd rk ps => [pText pd, eText rk, pText ps]
  | .poseidon rb => [eText rb]
  | .pedersen rd rs1 rs2 => [eText rd, eText rs1, eText rs2]
  | .verify rm rr rs pk => [eText rm, eText rr, eText rs, pText pk]
  | .verifyxy rm rr rs rx ry => [eText rm, eText rr, eText rs, eText rx, eText ry]
  | .schk rs => [eText rs]

/-- A command as written (30_encoding R79). -/
def assembly (i : Instr) : String :=
  match operandTexts i with
  | [] => mnemonic i
  | ops => mnemonic i ++ " " ++ String.intercalate ", " ops

/-- The byte address of byte `k` of a slot, `32*s + k` (20_memory R51). -/
def slotByteAddr (slot : Slot) (k : Fin 32) : Addr := ⟨32 * slot.val + k.val, by omega⟩

/-- The host shorthand `BUFW32 [s], v`: the 32 byte writes of the big-endian encoding of a 256-bit number
(30_encoding R79). -/
def bufW32 (slot : Slot) (v : Nat) : List Transaction :=
  (List.finRange 32).map fun k =>
    .bufWrite (slotByteAddr slot k) (BitVec.ofNat 8 (v / 2 ^ (8 * (31 - k.val))))

/-- The host shorthand `BUFR32 [s]`: the 32 byte reads of a slot (30_encoding R79). -/
def bufR32 (slot : Slot) : List Transaction := (List.finRange 32).map fun k => .bufRead (slotByteAddr slot k)

/-- The number a slot encodes, what the reads of `BUFR32 [s]` denote (20_memory R52, 30_encoding R79). -/
def slotNumber (m : Memory) (slot : Slot) : Nat := bigEndian (m.readBytes (slotAddr slot) 32)

/-- The pseudo-commands (30_encoding R80). The slot of `LDP` and `STP` is at most 30. -/
inductive Pseudo where
  | fzero (ed : EReg)
  | fone (ed : EReg)
  | fdbl (ed es : EReg)
  | fdiv (ed es1 es2 et : EReg)
  | paddd (pd ps : PReg)
  | psub (pd ps1 ps2 pt : PReg)
  | ldp (pd : PReg) (slot : Fin 31) (et1 et2 : EReg)
  | stp (ps : PReg) (slot : Fin 31) (et1 et2 : EReg)
deriving DecidableEq, Repr

/-- The commands a pseudo-command expands to (30_encoding R80). -/
def expand : Pseudo → List Instr
  | .fzero ed => [.fli ed 0]
  | .fone ed => [.fli ed 1]
  | .fdbl ed es => [.fadd ed es es]
  | .fdiv ed es1 es2 et => [.finv et es2, .fmul ed es1 et]
  | .paddd pd ps => [.padd pd ps ps]
  | .psub pd ps1 ps2 pt => [.pneg pt ps2, .padd pd ps1 pt]
  | .ldp pd slot et1 et2 =>
    [.lde et1 ⟨slot.val, by omega⟩, .lde et2 ⟨slot.val + 1, by omega⟩, .pset pd et1 et2]
  | .stp ps slot et1 et2 =>
    [.pgetx et1 ps, .pgety et2 ps, .ste et1 ⟨slot.val, by omega⟩, .ste et2 ⟨slot.val + 1, by omega⟩]

/-- A host making the commands of an expansion one after another, which stops where `LAST` is not 0
(30_encoding R80). -/
def runExpansion : List Instr → State → Host.Outcome State Fault Refusal
  | [], s => .next s
  | i :: rest, s =>
    match issue (encode i) s with
    | .next t => if t.last = none then runExpansion rest t else .next t
    | .fault r => .fault r
    | .refused r => .refused r

end Sys2Proof.Machine
end

