-- ==== Sys2Proof/Safety.lean ====
section
/-!
DEFINITION. What the claims take as a safe state: well-formed constant tables (spec/00_scope.md R8), the invariants of the
register files and the status registers (spec/10_state.md R26, R30; spec/60_exceptions.md R244), and the table of
the errors a command can raise (R241).
-/

namespace Sys2Proof.Machine

/-- `Params` is well formed (00_scope R8). W1 and W4 are carried by the type of `Params` (log entry 6). -/
structure WellFormedParams (p : Params) : Prop where
  /-- W2 for the generator. -/
  generatorOnCurve : pointValid p p.generator = true
  /-- W2 for the Pedersen shift point. -/
  shiftOnCurve : pointValid p p.pedShift.point = true
  /-- W2 for `PED_P1`. -/
  ped1OnCurve : pointValid p p.pedP1.point = true
  /-- W2 for `PED_P2`. -/
  ped2OnCurve : pointValid p p.pedP2.point = true
  /-- W2 for `PED_P3`. -/
  ped3OnCurve : pointValid p p.pedP3.point = true
  /-- W2 for `PED_P4`. -/
  ped4OnCurve : pointValid p p.pedP4.point = true
  /-- W3: `N` is prime. -/
  orderPrime : Nat.Prime p.n
  /-- W3: `smul(N, G) = Identity`. -/
  orderOfGenerator : smul p p.n p.generator = .identity
  /-- W5: the curve is non-singular. -/
  nonSingular : (4 * p.alpha.val ^ 3 + 27 * p.beta.val ^ 2) % P ≠ 0

/-- The named assumption `PedersenNeverIdentity(Params)` (44_pedersen R202). -/
def PedersenNeverIdentity (p : Params) : Prop := ∀ x y : Felt, pedersenPoint p x y ≠ .identity

/-- The invariant of every transaction boundary. -/
structure Sound (s : State) : Prop where
  /-- The constant tables are well formed (00_scope R8). -/
  params : WellFormedParams s.params
  /-- Every P register holds `Identity` or a point of the curve (10_state R26). -/
  points : ∀ i : PReg, pointValid s.params (s.getPt i) = true
  /-- The buffer is in its canonical form (20_memory R50; log entry 4). -/
  buffer : s.buf.wf = true
  /-- `ERRCMD` is 0 whenever `ERR` is 0 (10_state R30). -/
  errcmdZero : s.err = none → s.errcmd = 0#32
  /-- The error of the latest command is recorded (60_exceptions R244). -/
  lastRecorded : s.last ≠ none → s.err ≠ none

/-- The status side of a command that completed (60_exceptions R245): `LAST` is 0, the error latch, the constant tables and
what the host holds are as before. -/
structure Completes (s t : State) : Prop where
  last : t.last = none
  err : t.err = s.err
  errcmd : t.errcmd = s.errcmd
  params : t.params = s.params
  pending : t.pending = s.pending
  answers : t.answers = s.answers

/-- The word `op ‖ a ‖ b ‖ c ‖ low`, `low` its 12 low bits, decodes to the command `i` (30_encoding R71, R75). -/
def HasWord (op a b c low : Nat) (i : Instr) : Prop :=
  decode (BitVec.ofNat 32 (op * 2 ^ 24 + a * 2 ^ 20 + b * 2 ^ 16 + c * 2 ^ 12 + low)) = .ok i

/-- `t` is the matrix times the column `(v0, v1, v2)`, each element its residue (43_poseidon R191). -/
def IsMixed (m : Matrix3) (v0 v1 v2 : Nat) (t : State3) : Prop :=
  t.s0.val = (m.row0.s0.val * v0 + m.row0.s1.val * v1 + m.row0.s2.val * v2) % P ∧
  t.s1.val = (m.row1.s0.val * v0 + m.row1.s1.val * v1 + m.row1.s2.val * v2) % P ∧
  t.s2.val = (m.row2.s0.val * v0 + m.row2.s1.val * v1 + m.row2.s2.val * v2) % P

/-- Every E register is as before. -/
def KeepsE (s t : State) : Prop := ∀ j : EReg, t.getE j = s.getE j

/-- Every P register is as before. -/
def KeepsPt (s t : State) : Prop := ∀ j : PReg, t.getPt j = s.getPt j

/-- Every byte of the buffer reads as before. -/
def KeepsBuf (s t : State) : Prop := ∀ a : Nat, t.buf.read a = s.buf.read a

/-- The command completed, `E[rd]` holds `v`, and nothing else changed. -/
structure SetsOnlyE (s t : State) (rd : EReg) (v : Felt) : Prop where
  value : t.getE rd = v
  others : ∀ j : EReg, j ≠ rd → t.getE j = s.getE j
  points : KeepsPt s t
  flag : t.flag = s.flag
  buffer : KeepsBuf s t
  status : Completes s t

/-- The command completed, `Pt[pd]` holds `q`, and nothing else changed. -/
structure SetsOnlyPt (s t : State) (pd : PReg) (q : Point) : Prop where
  value : t.getPt pd = q
  others : ∀ j : PReg, j ≠ pd → t.getPt j = s.getPt j
  elements : KeepsE s t
  flag : t.flag = s.flag
  buffer : KeepsBuf s t
  status : Completes s t

/-- The command completed, `FLAG` is `b`, and nothing else changed. -/
structure SetsOnlyFlag (s t : State) (b : Bool) : Prop where
  value : t.flag = b
  elements : KeepsE s t
  points : KeepsPt s t
  buffer : KeepsBuf s t
  status : Completes s t

/-- The command completed and changed nothing but `LAST`. -/
structure OnlyCompletes (s t : State) : Prop where
  elements : KeepsE s t
  points : KeepsPt s t
  flag : t.flag = s.flag
  buffer : KeepsBuf s t
  status : Completes s t

/-- Error entry of the error `k` in a command issued as word `w` (60_exceptions R244): no destination is written, `LAST`
is the code, the latch takes error and word when it was empty and keeps both when it was not. -/
structure OnlyRaises (s t : State) (k : ErrorKind) (w : Word) : Prop where
  elements : KeepsE s t
  points : KeepsPt s t
  flag : t.flag = s.flag
  buffer : KeepsBuf s t
  last : t.last = some k
  latches : s.err = none → t.err = some k ∧ t.errcmd = w
  keepsFirst : s.err ≠ none → t.err = s.err ∧ t.errcmd = s.errcmd
  params : t.params = s.params
  pending : t.pending = s.pending
  answers : t.answers = s.answers

/-- Which errors a command can raise once decoded (60_exceptions R241). -/
def mayRaise : Instr → ErrorKind → Bool
  | .nop, _ => false
  | .clrerr, _ => false
  | .lde _ _, k => decide (k = .invalidEncoding)
  | .ste _ _, _ => false
  | .fli _ _, _ => false
  | .fmov _ _, _ => false
  | .fadd _ _ _, _ => false
  | .fsub _ _ _, _ => false
  | .fneg _ _, _ => false
  | .fmul _ _ _, _ => false
  | .fsqr _ _, _ => false
  | .finv _ _, k => decide (k = .divisionByZero)
  | .fpow _ _ _, _ => false
  | .feq _ _, _ => false
  | .pset _ _ _, k => decide (k = .pointNotOnCurve)
  | .pinf _, _ => false
  | .pgen _, _ => false
  | .pmov _ _, _ => false
  | .pgetx _ _, k => decide (k = .pointIsIdentity)
  | .pgety _ _, k => decide (k = .pointIsIdentity)
  | .pisinf _, _ => false
  | .ponc _ _, _ => false
  | .peq _ _, _ => false
  | .pneg _ _, _ => false
  | .padd _ _ _, _ => false
  | .pdbl _ _, _ => false
  | .smul _ _ _, k => decide (k = .scalarOutOfRange)
  | .poseidon _, _ => false
  | .pedersen _ _ _, k => decide (k = .pointIsIdentity)
  | .verify _ _ _ _, _ => false
  | .verifyxy _ _ _ _ _, _ => false
  | .schk _, k => decide (k = .scalarOutOfRange)

/-- Which errors a command word can raise: an illegal word raises `IllegalCommand` and nothing else, a legal one what
its command can (60_exceptions R241). -/
def wordMayRaise (w : Word) (k : ErrorKind) : Bool :=
  match decode w with
  | .ok i => mayRaise i k
  | .error _ => decide (k = .illegalCommand)

/-- Which commands write `FLAG` (10_state R27). -/
def isPredicate : Instr → Bool
  | .feq _ _ => true
  | .pisinf _ => true
  | .ponc _ _ => true
  | .peq _ _ => true
  | .verify _ _ _ _ => true
  | .verifyxy _ _ _ _ _ => true
  | .nop | .clrerr | .lde _ _ | .ste _ _ | .fli _ _ | .fmov _ _ | .fadd _ _ _ | .fsub _ _ _ | .fneg _ _
  | .fmul _ _ _ | .fsqr _ _ | .finv _ _ | .fpow _ _ _ | .pset _ _ _ | .pinf _ | .pgen _ | .pmov _ _
  | .pgetx _ _ | .pgety _ _ | .pneg _ _ | .padd _ _ _ | .pdbl _ _ | .smul _ _ _ | .poseidon _
  | .pedersen _ _ _ | .schk _ => false

/-- The P register a command writes, if it writes one (10_state R26). -/
def pointDest : Instr → Option PReg
  | .pset pd _ _ => some pd
  | .pinf pd => some pd
  | .pgen pd => some pd
  | .pmov pd _ => some pd
  | .pneg pd _ => some pd
  | .padd pd _ _ => some pd
  | .pdbl pd _ => some pd
  | .smul pd _ _ => some pd
  | .nop | .clrerr | .lde _ _ | .ste _ _ | .fli _ _ | .fmov _ _ | .fadd _ _ _ | .fsub _ _ _ | .fneg _ _
  | .fmul _ _ _ | .fsqr _ _ | .finv _ _ | .fpow _ _ _ | .feq _ _ | .pgetx _ _ | .pgety _ _ | .pisinf _
  | .ponc _ _ | .peq _ _ | .poseidon _ | .pedersen _ _ _ | .verify _ _ _ _ | .verifyxy _ _ _ _ _
  | .schk _ => none

/-- The E registers a command writes, as a test on the register number (10_state R23). -/
def writesE : Instr → EReg → Bool
  | .lde rd _, j => decide (j = rd)
  | .fli rd _, j => decide (j = rd)
  | .fmov rd _, j => decide (j = rd)
  | .fadd rd _ _, j => decide (j = rd)
  | .fsub rd _ _, j => decide (j = rd)
  | .fneg rd _, j => decide (j = rd)
  | .fmul rd _ _, j => decide (j = rd)
  | .fsqr rd _, j => decide (j = rd)
  | .finv rd _, j => decide (j = rd)
  | .fpow rd _ _, j => decide (j = rd)
  | .pgetx rd _, j => decide (j = rd)
  | .pgety rd _, j => decide (j = rd)
  | .pedersen rd _ _, j => decide (j = rd)
  | .poseidon rb, j => decide (rb.val ≤ j.val) && decide (j.val ≤ rb.val + 2)
  | .nop, _ | .clrerr, _ | .ste _ _, _ | .feq _ _, _ | .pset _ _ _, _ | .pinf _, _ | .pgen _, _ | .pmov _ _, _
  | .pisinf _, _ | .ponc _ _, _ | .peq _ _, _ | .pneg _ _, _ | .padd _ _ _, _ | .pdbl _ _, _ | .smul _ _ _, _
  | .verify _ _ _ _, _ | .verifyxy _ _ _ _ _, _ | .schk _, _ => false

/-- The slot a command stores to, if it stores (20_memory R50). -/
def slotDest : Instr → Option Slot
  | .ste _ slot => some slot
  | .nop | .clrerr | .lde _ _ | .fli _ _ | .fmov _ _ | .fadd _ _ _ | .fsub _ _ _ | .fneg _ _ | .fmul _ _ _
  | .fsqr _ _ | .finv _ _ | .fpow _ _ _ | .feq _ _ | .pset _ _ _ | .pinf _ | .pgen _ | .pmov _ _
  | .pgetx _ _ | .pgety _ _ | .pisinf _ | .ponc _ _ | .peq _ _ | .pneg _ _ | .padd _ _ _ | .pdbl _ _
  | .smul _ _ _ | .poseidon _ | .pedersen _ _ _ | .verify _ _ _ _ | .verifyxy _ _ _ _ _ | .schk _ => none

end Sys2Proof.Machine
end

