-- ==== Sys2Proof/Certificates/Slice0/Obligations.lean ====
section
/-!
DEFINITION. The statements for the provers, from the numbered rules of the spec. `SetsOnlyE`, `SetsOnlyPt`, `SetsOnlyFlag`,
`OnlyCompletes` and `OnlyRaises` (Sys2Proof/Safety.lean) carry the frame: what the command leaves as it was.
-/

open Sys2Proof Sys2Proof.Machine

/-! ### Encoding (spec/30_encoding.md) -/

/-- R71, R75, R76: decoding the word of a command gives the command back, every operand at every value. -/
def Obligations.DecodeOfEncode : Prop :=
  ∀ i : Instr, i.wellFormed = true → decode (encode i) = .ok i

/-- R75, R76: a word that decodes is the one word of a well-formed command. -/
def Obligations.EncodeOfDecode : Prop :=
  ∀ (w : Word) (i : Instr), decode w = .ok i → i.wellFormed = true ∧ encode i = w

/-- R75, R76: a word is the command of a row of the opcode map exactly when its masked bits are the row's match (and the
base of `POSEIDON` is at most 13), and it is illegal exactly when it is the command of no row. -/
def Obligations.DecoderAgreesWithOpcodeMap : Prop :=
  ∀ w : Word,
    (∀ row ∈ opcodeMap,
      (w &&& row.2.2 = row.2.1 ∧ (row.1 = "POSEIDON" → (fieldA w).val ≤ 13)) ↔
        ∃ i, decode w = .ok i ∧ mnemonic i = row.1) ∧
    ((∃ r, decode w = .error r) ↔
      ∀ row ∈ opcodeMap, ¬ (w &&& row.2.2 = row.2.1 ∧ (row.1 = "POSEIDON" → (fieldA w).val ≤ 13)))

/-- R78: the examples of encodings and of illegal words. -/
def Obligations.DecodeExamples : Prop :=
  decode 0x20312000#32 = .ok (.fadd 3 1 2) ∧
  decode 0x10100002#32 = .ok (.lde 1 2) ∧
  decode 0x11F0001F#32 = .ok (.ste 15 31) ∧
  decode 0x125007FF#32 = .ok (.fli 5 0x7FF) ∧
  decode 0x3A701000#32 = .ok (.padd 7 0 1) ∧
  decode 0x3C241000#32 = .ok (.smul 2 4 1) ∧
  decode 0x40D00000#32 = .ok (.poseidon 13) ∧
  decode 0x50012300#32 = .ok (.verify 0 1 2 3) ∧
  decode 0x51012340#32 = .ok (.verifyxy 0 1 2 3 4) ∧
  decode 0x02000000#32 = .error .opcode ∧
  decode 0x20312001#32 = .error .mustBeZero ∧
  decode 0x3A801000#32 = .error .pointRegister ∧
  decode 0x40E00000#32 = .error .poseidonBase ∧
  decode 0x10100020#32 = .error .mustBeZero ∧
  decode 0x00000001#32 = .error .mustBeZero

/-! ### The step, errors and status (spec/10_state.md, spec/60_exceptions.md, spec/46_system.md) -/

/-- R21, R22: a step that issues a word which decodes to a command is that command at the state without the transaction; the
presented word is issued by the very next step. -/
def Obligations.StepRunsDecodedCommand : Prop :=
  ∀ (s : State) (w : Word) (i : Instr), decode w = .ok i →
    (∀ rest, s.pending = .issue w :: rest → step s = exec i { s with pending := rest }) ∧
    step (s.withFetchWord 32 w.toNat) = exec i s

/-- R21, R22, R257: a step makes the first of the transactions to come, every transaction is answered by a next state, and
with none to come the state is held. -/
def Obligations.StepMakesTheNextTransaction : Prop :=
  ∀ s : State,
    (s.pending = [] → step s = .next s) ∧
    (∀ x rest, s.pending = x :: rest →
      step s = transact x { s with pending := rest } ∧
        ∃ t, transact x { s with pending := rest } = .next t ∧ t.pending = rest)

/-- R243: `IllegalCommand` is raised exactly for an illegal word, and with no other error. -/
def Obligations.IllegalCommandExactlyForIllegalWords : Prop :=
  ∀ (w : Word) (s : State), ∃ t, issue w s = .next t ∧
    (t.last = some .illegalCommand ↔ ∃ r, decode w = .error r) ∧
    ((∃ r, decode w = .error r) → OnlyRaises s t .illegalCommand w)

/-- R244, R245, with the codes of R240: every word that is issued completes with `LAST` 0 and the error latch as it was (`CLRERR` apart), or enters
one error, with its word: nothing but `LAST` and an empty latch is written. -/
def Obligations.CommandsCompleteOrEnterAnError : Prop :=
  (∀ (w : Word) (s : State), ∃ t, issue w s = .next t ∧
    ((t.last = none ∧ (decode w = .ok .clrerr ∨ t.err = s.err ∧ t.errcmd = s.errcmd)) ∨
      ∃ k, OnlyRaises s t k w)) ∧
  codeOf none = 0 ∧ codeOf (some .invalidEncoding) = 1 ∧ codeOf (some .divisionByZero) = 2 ∧
  codeOf (some .pointNotOnCurve) = 3 ∧ codeOf (some .scalarOutOfRange) = 4 ∧
  codeOf (some .illegalCommand) = 5 ∧ codeOf (some .pointIsIdentity) = 6

/-- R241: a command raises no error but those the table gives it. -/
def Obligations.OnlyListedErrorsAreRaised : Prop :=
  ∀ (w : Word) (s t : State) (k : ErrorKind),
    issue w s = .next t → t.last = some k → wordMayRaise w k = true

/-- R230: `NOP`. -/
def Obligations.NoOperation : Prop :=
  HasWord 0x00 0 0 0 0 .nop ∧ ∀ s : State, ∃ t, exec .nop s = .next t ∧ OnlyCompletes s t

/-- R231: `CLRERR` clears the error latch, and no other command does. -/
def Obligations.AcknowledgeError : Prop :=
  HasWord 0x01 0 0 0 0 .clrerr ∧
  ∀ s : State,
    (∃ t, exec .clrerr s = .next t ∧ t.err = none ∧ t.errcmd = 0#32 ∧ t.last = none ∧
      KeepsE s t ∧ KeepsPt s t ∧ t.flag = s.flag ∧ KeepsBuf s t ∧
      t.params = s.params ∧ t.pending = s.pending ∧ t.answers = s.answers) ∧
    (∀ i t, exec i s = .next t → s.err ≠ none → t.err = none → i = .clrerr)

/-! ### Element load and store (spec/41_loadstore.md, spec/20_memory.md) -/

/-- R142: `LDE` loads the big-endian integer of the slot, or raises `InvalidEncoding` when it is `P` or more. -/
def Obligations.LoadElement : Prop :=
  ∀ (rd : EReg) (slot : Slot) (s : State) (v : Nat),
    v = ∑ k ∈ Finset.range 32, (s.buf.read (32 * slot.val + k)).toNat * 256 ^ (31 - k) →
    HasWord 0x10 rd.val 0 0 slot.val (.lde rd slot) ∧
    (∀ h : v < P, ∃ t, exec (.lde rd slot) s = .next t ∧ SetsOnlyE s t rd ⟨v, h⟩) ∧
    (P ≤ v → ∃ t, exec (.lde rd slot) s = .next t ∧ OnlyRaises s t .invalidEncoding (encode (.lde rd slot)))

/-- R143: `STE` writes the 32 bytes of the encoding to its slot, and nothing else; an `LDE` of the slot just stored returns
the stored value. -/
def Obligations.StoreElement : Prop :=
  ∀ (rs : EReg) (slot : Slot) (s : State), s.buf.wf = true →
    HasWord 0x11 rs.val 0 0 slot.val (.ste rs slot) ∧
    slotAddr slot = 32 * slot.val ∧
    ∃ t, exec (.ste rs slot) s = .next t ∧
      (∀ k, k < 32 →
        t.buf.read (slotAddr slot + k) = BitVec.ofNat 8 ((s.getE rs).val / 2 ^ (8 * (31 - k)))) ∧
      (∀ a, a < slotAddr slot ∨ slotAddr slot + 32 ≤ a → t.buf.read a = s.buf.read a) ∧
      KeepsE s t ∧ KeepsPt s t ∧ t.flag = s.flag ∧ Completes s t ∧
      ∀ rd : EReg, ∃ u, exec (.lde rd slot) t = .next u ∧ SetsOnlyE t u rd (s.getE rs)

/-- R140, R141, and the round trip of R144: decoding accepts exactly the integers below `P`, encoding gives the big-endian
bytes, and decoding undoes encoding. The last clause, that encoding undoes decoding, is an inference that R144 marks as
its own. -/
def Obligations.ElementEncodingIsBijective : Prop :=
  (∀ bytes : List Byte, bytes.length = 32 →
    ∀ v, v = ∑ k ∈ Finset.range 32, (bytes.getD k 0#8).toNat * 256 ^ (31 - k) →
      (∀ h : v < P, decode32 bytes = .ok ⟨v, h⟩) ∧ (P ≤ v → decode32 bytes = .error .invalidEncoding)) ∧
  (∀ a : Felt, (encode32 a).length = 32 ∧
    (∀ k, k < 32 → (encode32 a).getD k 0#8 = BitVec.ofNat 8 (a.val / 2 ^ (8 * (31 - k)))) ∧
    ((encode32 a).getD 0 0#8).toNat ≤ 8) ∧
  (∀ a : Felt, decode32 (encode32 a) = .ok a) ∧
  (∀ (bytes : List Byte) (a : Felt), bytes.length = 32 → decode32 bytes = .ok a → encode32 a = bytes)

/-- R79, R51, R52, R53: the 32 byte writes of `BUFW32 [s], v` make the slot encode `v` and change nothing else; the 32 reads
of `BUFR32 [s]` return its bytes in order and change nothing. -/
def Obligations.HostWritesAndReadsASlot : Prop :=
  ∀ (slot : Slot) (v : Nat) (s : State), s.buf.wf = true → v < 2 ^ 256 →
    (∃ m, transactAll (bufW32 slot v) s = .next (s.setBuf m) ∧ slotNumber m slot = v ∧
      (∀ a, a < 32 * slot.val ∨ 32 * slot.val + 32 ≤ a → m.read a = s.buf.read a)) ∧
    transactAll (bufR32 slot) s =
      .next { s with answers := s.answers ++ (s.buf.readBytes (32 * slot.val) 32).map Answer.byte }

/-! ### Field (spec/40_field.md) -/

/-- R110, R111: `FLI` and `FMOV`. -/
def Obligations.LoadConstantAndCopy : Prop :=
  (∀ (rd : EReg) (imm : Imm12) (s : State),
    HasWord 0x12 rd.val 0 0 imm.val (.fli rd imm) ∧
    ∃ t v, exec (.fli rd imm) s = .next t ∧ SetsOnlyE s t rd v ∧ v.val = imm.val) ∧
  (∀ (rd rs : EReg) (s : State),
    HasWord 0x13 rd.val rs.val 0 0 (.fmov rd rs) ∧
    ∃ t, exec (.fmov rd rs) s = .next t ∧ SetsOnlyE s t rd (s.getE rs))

/-- R112 to R116: `FADD`, `FSUB`, `FNEG`, `FMUL`, `FSQR` write the exact residue. -/
def Obligations.FieldRingCommands : Prop :=
  (∀ (rd rs1 rs2 : EReg) (s : State),
    (HasWord 0x20 rd.val rs1.val rs2.val 0 (.fadd rd rs1 rs2) ∧
      ∃ t v, exec (.fadd rd rs1 rs2) s = .next t ∧ SetsOnlyE s t rd v ∧
        v.val = ((s.getE rs1).val + (s.getE rs2).val) % P) ∧
    (HasWord 0x21 rd.val rs1.val rs2.val 0 (.fsub rd rs1 rs2) ∧
      ∃ t v, exec (.fsub rd rs1 rs2) s = .next t ∧ SetsOnlyE s t rd v ∧
        (v.val : Int) = (((s.getE rs1).val : Int) - ((s.getE rs2).val : Int)) % (P : Int)) ∧
    (HasWord 0x23 rd.val rs1.val rs2.val 0 (.fmul rd rs1 rs2) ∧
      ∃ t v, exec (.fmul rd rs1 rs2) s = .next t ∧ SetsOnlyE s t rd v ∧
        v.val = (s.getE rs1).val * (s.getE rs2).val % P)) ∧
  (∀ (rd rs : EReg) (s : State),
    (HasWord 0x22 rd.val rs.val 0 0 (.fneg rd rs) ∧
      ∃ t v, exec (.fneg rd rs) s = .next t ∧ SetsOnlyE s t rd v ∧ v.val = (P - (s.getE rs).val) % P) ∧
    (HasWord 0x24 rd.val rs.val 0 0 (.fsqr rd rs) ∧
      ∃ t v, exec (.fsqr rd rs) s = .next t ∧ SetsOnlyE s t rd v ∧
        v.val = (s.getE rs).val * (s.getE rs).val % P))

/-- R117: `FINV` writes the unique inverse, or raises `DivisionByZero` exactly for 0. -/
def Obligations.FieldInverse : Prop :=
  ∀ (rd rs : EReg) (s : State),
    HasWord 0x25 rd.val rs.val 0 0 (.finv rd rs) ∧
    ((s.getE rs).val = 0 →
      ∃ t, exec (.finv rd rs) s = .next t ∧ OnlyRaises s t .divisionByZero (encode (.finv rd rs))) ∧
    ((s.getE rs).val ≠ 0 →
      ∃ t v, exec (.finv rd rs) s = .next t ∧ SetsOnlyE s t rd v ∧ v.val ≠ 0 ∧
        (s.getE rs).val * v.val % P = 1 ∧ (∀ b : Felt, (s.getE rs).val * b.val % P = 1 → b = v))

/-- R118: `FPOW` writes the power, the exponent register taken as the integer it is. -/
def Obligations.FieldPower : Prop :=
  ∀ (rd rs1 rs2 : EReg) (s : State),
    HasWord 0x26 rd.val rs1.val rs2.val 0 (.fpow rd rs1 rs2) ∧
    ∃ t v, exec (.fpow rd rs1 rs2) s = .next t ∧ SetsOnlyE s t rd v ∧
      v.val = (s.getE rs1).val ^ (s.getE rs2).val % P

/-- R107: the power function, its values at 0, its recursion, and its reference datapath. -/
def Obligations.PowerLadderIsExact : Prop :=
  ∀ (a : Felt) (k : Nat),
    (fpow a k).val = a.val ^ k % P ∧
    fpow a 0 = reduceP 1 ∧
    fpow a (k + 1) = fmul (fpow a k) a ∧
    (1 ≤ k → fpow (reduceP 0) k = reduceP 0) ∧
    (k < 2 ^ 252 → fpowReference a k = fpow a k)

/-- R119: `FEQ`. -/
def Obligations.FieldEquality : Prop :=
  ∀ (rs1 rs2 : EReg) (s : State),
    HasWord 0x27 rs1.val rs2.val 0 0 (.feq rs1 rs2) ∧
    ∃ t b, exec (.feq rs1 rs2) s = .next t ∧ SetsOnlyFlag s t b ∧
      (b = true ↔ (s.getE rs1).val = (s.getE rs2).val)

/-- R100, R101, R102, R103, R105: the field functions, each in the form of its case split. -/
def Obligations.FieldFunctionsByCases : Prop :=
  ∀ a b : Felt,
    (a.val + b.val < P → (fadd a b).val = a.val + b.val) ∧
    (P ≤ a.val + b.val → (fadd a b).val = a.val + b.val - P) ∧
    (b.val ≤ a.val → (fsub a b).val = a.val - b.val) ∧
    (a.val < b.val → (fsub a b).val + b.val = a.val + P) ∧
    (a.val = 0 → (fneg a).val = 0) ∧
    (a.val ≠ 0 → (fneg a).val = P - a.val) ∧
    (fmul a b).val = a.val * b.val % P ∧ (reduceP (a.val * b.val)).val = (fmul a b).val ∧
    (fsqr a).val = a.val * a.val % P

/-- R108: every result is the exact residue, and the laws of field arithmetic. -/
def Obligations.FieldLaws : Prop :=
  ∀ a b c : Felt,
    (fadd a b).val = (a.val + b.val) % P ∧ ((fsub a b).val : Int) = ((a.val : Int) - (b.val : Int)) % (P : Int) ∧
    (fneg a).val = (P - a.val) % P ∧ (fmul a b).val = a.val * b.val % P ∧
    fadd (fadd a b) c = fadd a (fadd b c) ∧ fadd a b = fadd b a ∧
    fmul (fmul a b) c = fmul a (fmul b c) ∧ fmul a b = fmul b a ∧
    fmul a (fadd b c) = fadd (fmul a b) (fmul a c) ∧
    fadd a (reduceP 0) = a ∧ fmul a (reduceP 1) = a ∧
    fadd a (fneg a) = reduceP 0 ∧ fsub a b = fadd a (fneg b) ∧
    (a.val ≠ 0 → fmul a (finv a) = reduceP 1)

/-- R104: the reference datapath of the reducer is exact on every 504-bit value, with at most two final subtractions. -/
def Obligations.BarrettReducerIsExact : Prop :=
  barrettMu = 0x1fffffffffffffbc000000000000907ffffffffffeccf000000000028c81fffb ∧
  ∀ v : Nat, v < 2 ^ 504 →
    (reduceP v).val = v % P ∧ barrett v = v % P ∧
    v / 2 ^ 251 * barrettMu / 2 ^ 253 * P ≤ v ∧
    v - v / 2 ^ 251 * barrettMu / 2 ^ 253 * P < 3 * P

/-! ### Curve (spec/42_curve.md) -/

/-- R170: `PSET` makes the point exactly when the pair satisfies the curve equation. -/
def Obligations.MakePoint : Prop :=
  ∀ (pd : PReg) (rsx rsy : EReg) (s : State) (x y : Felt), x = s.getE rsx → y = s.getE rsy →
    HasWord 0x30 pd.val rsx.val rsy.val 0 (.pset pd rsx rsy) ∧
    (y.val ^ 2 % P = (x.val ^ 3 + s.params.alpha.val * x.val + s.params.beta.val) % P →
      ∃ t, exec (.pset pd rsx rsy) s = .next t ∧ SetsOnlyPt s t pd (.affine x y)) ∧
    (y.val ^ 2 % P ≠ (x.val ^ 3 + s.params.alpha.val * x.val + s.params.beta.val) % P →
      ∃ t, exec (.pset pd rsx rsy) s = .next t ∧
        OnlyRaises s t .pointNotOnCurve (encode (.pset pd rsx rsy)))

/-- R171, R172, R173: `PINF`, `PGEN`, `PMOV`. -/
def Obligations.IdentityGeneratorAndCopy : Prop :=
  (∀ (pd : PReg) (s : State),
    (HasWord 0x31 pd.val 0 0 0 (.pinf pd) ∧
      ∃ t, exec (.pinf pd) s = .next t ∧ SetsOnlyPt s t pd .identity) ∧
    (HasWord 0x32 pd.val 0 0 0 (.pgen pd) ∧
      ∃ t, exec (.pgen pd) s = .next t ∧ SetsOnlyPt s t pd (.affine s.params.gx s.params.gy))) ∧
  (∀ (pd ps : PReg) (s : State),
    HasWord 0x33 pd.val ps.val 0 0 (.pmov pd ps) ∧
    ∃ t, exec (.pmov pd ps) s = .next t ∧ SetsOnlyPt s t pd (s.getPt ps))

/-- R174, R175: `PGETX` and `PGETY` read a coordinate, or raise `PointIsIdentity` exactly for the identity. -/
def Obligations.ReadCoordinates : Prop :=
  ∀ (rd : EReg) (ps : PReg) (s : State),
    HasWord 0x34 rd.val ps.val 0 0 (.pgetx rd ps) ∧ HasWord 0x35 rd.val ps.val 0 0 (.pgety rd ps) ∧
    (∀ x y : Felt, s.getPt ps = .affine x y →
      (∃ t, exec (.pgetx rd ps) s = .next t ∧ SetsOnlyE s t rd x) ∧
      (∃ t, exec (.pgety rd ps) s = .next t ∧ SetsOnlyE s t rd y)) ∧
    (s.getPt ps = .identity →
      (∃ t, exec (.pgetx rd ps) s = .next t ∧ OnlyRaises s t .pointIsIdentity (encode (.pgetx rd ps))) ∧
      (∃ t, exec (.pgety rd ps) s = .next t ∧ OnlyRaises s t .pointIsIdentity (encode (.pgety rd ps))))

/-- R176, R177, R178: `PISINF`, `PONC`, `PEQ`. -/
def Obligations.PointTests : Prop :=
  (∀ (ps : PReg) (s : State),
    HasWord 0x36 ps.val 0 0 0 (.pisinf ps) ∧
    ∃ t b, exec (.pisinf ps) s = .next t ∧ SetsOnlyFlag s t b ∧ (b = true ↔ s.getPt ps = .identity)) ∧
  (∀ (rsx rsy : EReg) (s : State),
    HasWord 0x37 rsx.val rsy.val 0 0 (.ponc rsx rsy) ∧
    ∃ t b, exec (.ponc rsx rsy) s = .next t ∧ SetsOnlyFlag s t b ∧
      (b = true ↔ (s.getE rsy).val ^ 2 % P =
        ((s.getE rsx).val ^ 3 + s.params.alpha.val * (s.getE rsx).val + s.params.beta.val) % P)) ∧
  (∀ (ps1 ps2 : PReg) (s : State),
    HasWord 0x38 ps1.val ps2.val 0 0 (.peq ps1 ps2) ∧
    ∃ t b, exec (.peq ps1 ps2) s = .next t ∧ SetsOnlyFlag s t b ∧ (b = true ↔ s.getPt ps1 = s.getPt ps2))

/-- R151, R179: `PNEG`, and that a point and its negation add to the identity. -/
def Obligations.PointNegation : Prop :=
  ∀ (pd ps : PReg) (s : State),
    HasWord 0x39 pd.val ps.val 0 0 (.pneg pd ps) ∧
    ∃ t q, exec (.pneg pd ps) s = .next t ∧ SetsOnlyPt s t pd q ∧
      (s.getPt ps = .identity → q = .identity) ∧
      (∀ x y : Felt, s.getPt ps = .affine x y →
        ∃ z : Felt, q = .affine x z ∧ z.val = (P - y.val) % P ∧ (y.val = 0 → q = .affine x y)) ∧
      padd s.params (s.getPt ps) q = .identity ∧ padd s.params q (s.getPt ps) = .identity

/-- R160, R180: `PADD`, by the cases of the point adder; the slope is the unique solution of its equation modulo `P`. -/
def Obligations.PointAddition : Prop :=
  ∀ (pd ps1 ps2 : PReg) (s : State),
    HasWord 0x3A pd.val ps1.val ps2.val 0 (.padd pd ps1 ps2) ∧
    ∃ t q, exec (.padd pd ps1 ps2) s = .next t ∧ SetsOnlyPt s t pd q ∧
      (s.getPt ps1 = .identity → q = s.getPt ps2) ∧
      (s.getPt ps2 = .identity → q = s.getPt ps1) ∧
      (∀ x1 y1 x2 y2 : Felt, s.getPt ps1 = .affine x1 y1 → s.getPt ps2 = .affine x2 y2 →
        (x1 = x2 → y1 = y2 → y1.val ≠ 0 → q = pdbl s.params (.affine x1 y1)) ∧
        (x1 = x2 → y1 ≠ y2 ∨ y1.val = 0 → q = .identity) ∧
        (x1 ≠ x2 → ∃ lam x3 y3 : Felt, q = .affine x3 y3 ∧
          fmul lam (fsub x2 x1) = fsub y2 y1 ∧
          x3 = fsub (fsub (fsqr lam) x1) x2 ∧ y3 = fsub (fmul lam (fsub x1 x3)) y1)) ∧
      padd s.params (s.getPt ps2) (s.getPt ps1) = q

/-- R161, R181: `PDBL`, by the cases of the point doubler; it equals `PADD pd, ps, ps`. -/
def Obligations.PointDoubling : Prop :=
  ∀ (pd ps : PReg) (s : State),
    HasWord 0x3B pd.val ps.val 0 0 (.pdbl pd ps) ∧
    ∃ t q, exec (.pdbl pd ps) s = .next t ∧ SetsOnlyPt s t pd q ∧
      (s.getPt ps = .identity → q = .identity) ∧
      (∀ x1 y1 : Felt, s.getPt ps = .affine x1 y1 →
        (y1.val = 0 → q = .identity) ∧
        (y1.val ≠ 0 → ∃ lam x3 y3 : Felt, q = .affine x3 y3 ∧
          fmul lam (fadd y1 y1) = fadd (fmul (reduceP 3) (fsqr x1)) s.params.alpha ∧
          x3 = fsub (fsub (fsqr lam) x1) x1 ∧ y3 = fsub (fmul lam (fsub x1 x3)) y1)) ∧
      exec (.padd pd ps ps) s = .next t

/-- R182: `SMUL`, its range check by integer comparison, and the multiple by `N - 1` in the subgroup of the generator. -/
def Obligations.ScalarMultiplication : Prop :=
  ∀ (pd : PReg) (rk : EReg) (ps : PReg) (s : State),
    HasWord 0x3C pd.val rk.val ps.val 0 (.smul pd rk ps) ∧
    ((s.getE rk).val < s.params.n →
      ∃ t, exec (.smul pd rk ps) s = .next t ∧
        SetsOnlyPt s t pd (smul s.params (s.getE rk).val (s.getPt ps))) ∧
    (s.params.n ≤ (s.getE rk).val →
      ∃ t, exec (.smul pd rk ps) s = .next t ∧
        OnlyRaises s t .scalarOutOfRange (encode (.smul pd rk ps))) ∧
    (WellFormedParams s.params → ∀ j : Nat,
      smul s.params (s.params.n - 1) (smul s.params j s.params.generator) =
        pneg (smul s.params j s.params.generator))

/-- R163: the recursion of the scalar multiplier, its fixed laws, and that it is repeated addition. -/
def Obligations.ScalarMultiplicationIsRepeatedAddition : Prop :=
  ∀ (p : Params) (a : Point) (k : Nat),
    smul p 0 a = .identity ∧
    (1 ≤ k → k % 2 = 1 →
      smul p k a = padd p (padd p (smul p (k / 2) a) (smul p (k / 2) a)) a) ∧
    (1 ≤ k → k % 2 = 0 → smul p k a = padd p (smul p (k / 2) a) (smul p (k / 2) a)) ∧
    smul p 1 a = a ∧ smul p k .identity = .identity ∧
    (WellFormedParams p → pointValid p a = true → smul p (k + 1) a = padd p (smul p k a) a)

/-- R164: the reference datapath of the scalar multiplier is exact for every scalar of 252 bits. -/
def Obligations.ScalarLadderIsExact : Prop :=
  ∀ (p : Params) (a : Point) (k : Nat), k < 2 ^ 252 → smulReference p k a = smul p k a

/-- R162: the points are closed under the operations, and with well-formed constant tables they form a commutative group. -/
def Obligations.PointsFormCommutativeGroup : Prop :=
  ∀ (p : Params) (a b c : Point),
    pointValid p a = true → pointValid p b = true → pointValid p c = true →
    pointValid p (pneg a) = true ∧ pointValid p (padd p a b) = true ∧ pointValid p (pdbl p a) = true ∧
    (WellFormedParams p →
      padd p (padd p a b) c = padd p a (padd p b c) ∧ padd p a b = padd p b a ∧
      padd p .identity a = a ∧ padd p a .identity = a ∧ padd p a (pneg a) = .identity)

/-! ### Hashes (spec/43_poseidon.md, spec/44_pedersen.md) -/

/-- R195: `POSEIDON` permutes three consecutive registers in place; a base above 13 is no command. -/
def Obligations.PoseidonCommand : Prop :=
  ∀ (rb : EReg) (s : State),
    (∀ h : rb.val ≤ 13,
      HasWord 0x40 rb.val 0 0 0 (.poseidon rb) ∧
      ∃ t out, out = hades s.params
          ⟨s.getE rb, s.getE ⟨rb.val + 1, by omega⟩, s.getE ⟨rb.val + 2, by omega⟩⟩ ∧
        exec (.poseidon rb) s = .next t ∧
        t.getE rb = out.s0 ∧ t.getE ⟨rb.val + 1, by omega⟩ = out.s1 ∧ t.getE ⟨rb.val + 2, by omega⟩ = out.s2 ∧
        (∀ j : EReg, j.val < rb.val ∨ rb.val + 2 < j.val → t.getE j = s.getE j) ∧
        KeepsPt s t ∧ t.flag = s.flag ∧ KeepsBuf s t ∧ Completes s t) ∧
    (13 < rb.val → decode (BitVec.ofNat 32 (0x40 * 2 ^ 24 + rb.val * 2 ^ 20)) = .error .poseidonBase)

/-- R190 to R194: the rounds of the permutation in their order, each with its row of constants, every element spelled out
modulo `P`. Full rounds act on all three elements, partial rounds on the first. -/
def Obligations.PoseidonRounds : Prop :=
  ∀ (p : Params) (s : State3),
    ∃ f : Nat → State3, f 0 = s ∧ hades p s = f (p.posRF1 + p.posRP + p.posRF2) ∧
      (∀ (r : Nat) (c : State3), p.posFull1[r]? = some c →
        IsMixed p.posM (((f r).s0.val + c.s0.val) ^ 3) (((f r).s1.val + c.s1.val) ^ 3)
          (((f r).s2.val + c.s2.val) ^ 3) (f (r + 1))) ∧
      (∀ (r q : Nat) (c : Felt), q = p.posRF1 + r → p.posPartial[r]? = some c →
        IsMixed p.posM (((f q).s0.val + c.val) ^ 3) (f q).s1.val (f q).s2.val (f (q + 1))) ∧
      (∀ (r q : Nat) (c : State3), q = p.posRF1 + p.posRP + r → p.posFull2[r]? = some c →
        IsMixed p.posM (((f q).s0.val + c.s0.val) ^ 3) (((f q).s1.val + c.s1.val) ^ 3)
          (((f q).s2.val + c.s2.val) ^ 3) (f (q + 1)))

/-- R200, R201, R202: `PEDERSEN` writes the x-coordinate of the shifted sum over the chunks of its inputs, or raises
`PointIsIdentity` exactly when the sum is the identity; under the named assumption it always completes. -/
def Obligations.PedersenCommand : Prop :=
  ∀ (rd rs1 rs2 : EReg) (s : State) (x y : Felt) (q : Point), x = s.getE rs1 → y = s.getE rs2 →
    q = padd s.params (padd s.params (padd s.params (padd s.params
          (.affine s.params.pedShift.x s.params.pedShift.y)
          (smul s.params (x.val % 2 ^ 248) (.affine s.params.pedP1.x s.params.pedP1.y)))
          (smul s.params (x.val / 2 ^ 248) (.affine s.params.pedP2.x s.params.pedP2.y)))
          (smul s.params (y.val % 2 ^ 248) (.affine s.params.pedP3.x s.params.pedP3.y)))
          (smul s.params (y.val / 2 ^ 248) (.affine s.params.pedP4.x s.params.pedP4.y)) →
    HasWord 0x41 rd.val rs1.val rs2.val 0 (.pedersen rd rs1 rs2) ∧
    x.val / 2 ^ 248 ≤ 8 ∧
    (∀ xq yq : Felt, q = .affine xq yq → ∃ t, exec (.pedersen rd rs1 rs2) s = .next t ∧ SetsOnlyE s t rd xq) ∧
    (q = .identity → ∃ t, exec (.pedersen rd rs1 rs2) s = .next t ∧
      OnlyRaises s t .pointIsIdentity (encode (.pedersen rd rs1 rs2))) ∧
    (PedersenNeverIdentity s.params →
      ∃ t v, exec (.pedersen rd rs1 rs2) s = .next t ∧ SetsOnlyE s t rd v)

/-- R203: the hash of two zeros is the x-coordinate of the shift point. -/
def Obligations.PedersenOfZeros : Prop :=
  ∀ (rd rs1 rs2 : EReg) (s : State), (s.getE rs1).val = 0 → (s.getE rs2).val = 0 →
    ∃ t, exec (.pedersen rd rs1 rs2) s = .next t ∧ SetsOnlyE s t rd s.params.pedShift.x

/-! ### Signature (spec/45_signature.md) -/

/-- R215: `SCHK` accepts exactly the values from 1 to `N - 1`. -/
def Obligations.SignatureRangeCheck : Prop :=
  ∀ (rs : EReg) (s : State),
    HasWord 0x52 rs.val 0 0 0 (.schk rs) ∧
    (1 ≤ (s.getE rs).val → (s.getE rs).val < s.params.n →
      ∃ t, exec (.schk rs) s = .next t ∧ OnlyCompletes s t) ∧
    ((s.getE rs).val = 0 ∨ s.params.n ≤ (s.getE rs).val →
      ∃ t, exec (.schk rs) s = .next t ∧ OnlyRaises s t .scalarOutOfRange (encode (.schk rs)))

/-- R217, R212, R211: `VERIFY` sets `FLAG` to what the verification function answers; for a prime `N` that is the
verification equation, with the inverse and the two products modulo `N` spelled out. With `SIG_ALT = 1` and the key's
own sum the identity it answers 0: the model's reading of R212 step 6 against R216 (DEDUCED, log entry 12). -/
def Obligations.VerifyCommand : Prop :=
  ∀ (rm rr rs : EReg) (pk : PReg) (st : State) (p : Params) (m r s : Felt) (q : Point),
    p = st.params → m = st.getE rm → r = st.getE rr → s = st.getE rs → q = st.getPt pk →
    HasWord 0x50 rm.val rr.val rs.val (pk.val * 2 ^ 8) (.verify rm rr rs pk) ∧
    ∃ t, exec (.verify rm rr rs pk) st = .next t ∧ SetsOnlyFlag st t (verify p m r s q) ∧
      (Nat.Prime p.n →
        (verify p m r s q = true ↔
          r.val ≠ 0 ∧ r.val < p.n ∧ s.val ≠ 0 ∧ s.val < p.n ∧ q ≠ .identity ∧
          ∃ w u1 u2 : Nat, w < p.n ∧ s.val * w % p.n = 1 ∧ u1 = m.val * w % p.n ∧ u2 = r.val * w % p.n ∧
          ∃ x y : Felt, padd p (smul p u1 (.affine p.gx p.gy)) (smul p u2 q) = .affine x y ∧
          (x.val % p.n = r.val ∨
            (p.sigAlt = true ∧ ∃ x2 y2 : Felt,
              padd p (smul p u1 (.affine p.gx p.gy)) (smul p u2 (pneg q)) = .affine x2 y2 ∧
              x2.val % p.n = r.val))))

/-- R218: `VERIFYXY` sets `FLAG` to 1 exactly when the scalars are in range, the pair is on the curve and the signature
verifies against it. -/
def Obligations.VerifyCoordinatesCommand : Prop :=
  ∀ (rm rr rs rx ry : EReg) (st : State) (m r s xq yq : Felt),
    m = st.getE rm → r = st.getE rr → s = st.getE rs → xq = st.getE rx → yq = st.getE ry →
    HasWord 0x51 rm.val rr.val rs.val (rx.val * 2 ^ 8 + ry.val * 2 ^ 4) (.verifyxy rm rr rs rx ry) ∧
    ∃ t b, exec (.verifyxy rm rr rs rx ry) st = .next t ∧ SetsOnlyFlag st t b ∧
      (b = true ↔
        r.val ≠ 0 ∧ r.val < st.params.n ∧ s.val ≠ 0 ∧ s.val < st.params.n ∧
        yq.val ^ 2 % P = (xq.val ^ 3 + st.params.alpha.val * xq.val + st.params.beta.val) % P ∧
        verify st.params m r s (.affine xq yq) = true)

/-- R216: with `SIG_ALT = 1` a key and its negation verify alike, where neither of the two sums is the identity (the corner
where one is: log entry 12). With `SIG_ALT = 0` only the key's own sum counts. -/
def Obligations.AlternateConvention : Prop :=
  ∀ (p : Params) (m r s : Felt) (q : Point),
    (p.sigAlt = true → verifyPoint p m r s q ≠ .identity → verifyPoint p m r s (pneg q) ≠ .identity →
      verify p m r s q = verify p m r s (pneg q)) ∧
    (p.sigAlt = false → ∀ x y : Felt, verifyPoint p m r s q = .affine x y → verify p m r s q = true →
      x.val % p.n = r.val)

/-- R219: the message enters only modulo `N`. -/
def Obligations.MessageEntersModuloN : Prop :=
  ∀ (p : Params) (m m' r s : Felt) (q : Point), m'.val = m.val + p.n → verify p m r s q = verify p m' r s q

/-- R219: when `(r, s)` verifies, so does `(r, N - s)`, for a key whose order divides `N`. -/
def Obligations.NegatedSignatureVerifies : Prop :=
  ∀ (p : Params) (m r s s' : Felt) (q : Point),
    WellFormedParams p → pointValid p q = true → smul p p.n q = .identity → s'.val + s.val = p.n →
    verify p m r s q = true → verify p m r s' q = true

/-- R212, R219: a signature made with the signing equations verifies against the key of its private scalar. The signing
equations are general knowledge the spec records in 93_implementation_defined G12; the source gives none. -/
def Obligations.SignThenVerify : Prop :=
  ∀ (p : Params) (m r s x y : Felt) (d k : Nat),
    WellFormedParams p → 1 ≤ d → d < p.n →
    smul p k p.generator = .affine x y → r.val = x.val % p.n → r.val ≠ 0 → r.val < p.n →
    s.val ≠ 0 → s.val < p.n → s.val * k % p.n = (m.val + r.val * d) % p.n →
    verify p m r s (smul p d p.generator) = true

/-! ### The host's transactions, reset, and the whole machine -/

/-- R31: what the host reads of the status registers, and that reading changes nothing but what the host was told. -/
def Obligations.StatusRegisterReads : Prop :=
  ∀ (i : CsrIndex) (s : State),
    ∃ v, transact (.csrRead i) s = .next { s with answers := s.answers ++ [.csr v] } ∧
      (i = 0 → v.toNat = codeOf s.err * 2 ^ 8 + codeOf s.last * 2 ^ 4 + (if s.flag then 1 else 0) ∧
        v[0] = s.flag ∧ v.extractLsb' 1 3 = 0 ∧ (v.extractLsb' 4 4).toNat = codeOf s.last ∧
        (v.extractLsb' 8 4).toNat = codeOf s.err ∧ v.extractLsb' 12 20 = 0) ∧
      (i = 1 → v = s.errcmd) ∧ (i = 2 → v = 0x5A534401#32) ∧ (i = 3 → v = 0#32)

/-- R53: a `BufWrite` sets its byte and changes nothing else, made twice it leaves the state the first left (R56); a
`BufRead` returns its byte and changes nothing. -/
def Obligations.HostByteAccess : Prop :=
  ∀ (a : Addr) (v : Byte) (s : State), s.buf.wf = true →
    (∃ m, transact (.bufWrite a v) s = .next (s.setBuf m) ∧
      (∀ b : Nat, m.read b = if b = a.val then v else s.buf.read b) ∧
      transact (.bufWrite a v) (s.setBuf m) = .next (s.setBuf m)) ∧
    transact (.bufRead a) s = .next { s with answers := s.answers ++ [.byte (s.buf.read a.val)] }

/-- R36, R271: the reset values, with any contents of the buffer; the constant tables stay. -/
def Obligations.ResetValues : Prop :=
  ∀ (residue : Vector Byte 1024) (s : State),
    ∃ t, transact (.reset residue) s = .next t ∧
      (∀ j : EReg, (t.getE j).val = 0) ∧ (∀ j : PReg, t.getPt j = .identity) ∧
      t.flag = false ∧ codeOf t.last = 0 ∧ codeOf t.err = 0 ∧ t.errcmd = 0#32 ∧
      (∀ a : Addr, t.buf.read a.val = residue[a]) ∧ t.params = s.params

/-- R26, R24, R30, R8: every step keeps the invariant of the transaction boundaries. -/
def Obligations.StepKeepsSoundness : Prop :=
  ∀ s t : State, Sound s → step s = .next t → Sound t

/-- R36, R26: the state after reset meets the invariant, whatever the buffer holds, for well-formed constant tables. -/
def Obligations.InitialStateIsSound : Prop :=
  ∀ (p : Params) (residue : Vector Byte 1024), WellFormedParams p →
    Sound (State.initial p (Memory.ofBytes residue))

/-- R50 (log entry 4): every step keeps the canonical form of the buffer. -/
def Obligations.StepKeepsBufferCanonical : Prop :=
  ∀ s t : State, s.buf.wf = true → step s = .next t → t.buf.wf = true

/-- R32: no transaction changes the constant tables, and the host's transactions are made in order, each once. -/
def Obligations.StepKeepsConstantTables : Prop :=
  ∀ s t : State, step s = .next t → t.params = s.params ∧ t.pending = s.pending.tail

/-- R23, R26, R27, R50: an issued word writes no E register, P register, flag or buffer byte but those its command names as
destinations. -/
def Obligations.CommandsWriteOnlyTheirDestinations : Prop :=
  ∀ (w : Word) (s t : State), s.buf.wf = true → issue w s = .next t →
    (∀ j : EReg, t.getE j ≠ s.getE j → ∃ i, decode w = .ok i ∧ writesE i j = true) ∧
    (∀ j : PReg, t.getPt j ≠ s.getPt j → ∃ i, decode w = .ok i ∧ pointDest i = some j) ∧
    (t.flag ≠ s.flag → ∃ i, decode w = .ok i ∧ isPredicate i = true) ∧
    (∀ a : Nat, t.buf.read a ≠ s.buf.read a →
      ∃ i slot, decode w = .ok i ∧ slotDest i = some slot ∧ slotAddr slot ≤ a ∧ a < slotAddr slot + 32)

/-- R249, R27, R31: what a command computes does not depend on `FLAG`, `LAST`, `ERR` or `ERRCMD`, nor on what the host was
told or is going to do. -/
def Obligations.StatusDoesNotSteerCommands : Prop :=
  ∀ (w : Word) (s s' t t' : State),
    s.params = s'.params → s.e = s'.e → s.pt = s'.pt → s.buf = s'.buf →
    issue w s = .next t → issue w s' = .next t' →
    t.e = t'.e ∧ t.pt = t'.pt ∧ t.buf = t'.buf ∧ t.last = t'.last ∧ (s.flag = s'.flag → t.flag = t'.flag)

/-- R50: no command but `LDE` depends on the buffer. -/
def Obligations.OnlyLoadReadsTheBuffer : Prop :=
  ∀ (i : Instr) (s t : State) (m : Memory), (∀ rd slot, i ≠ .lde rd slot) → exec i s = .next t →
    ∃ t', exec i (s.setBuf m) = .next t' ∧ t'.e = t.e ∧ t'.pt = t.pt ∧ t'.flag = t.flag ∧
      t'.last = t.last ∧ t'.err = t.err ∧ t'.errcmd = t.errcmd

/-- R249: when `ERR` is 0 after a sequence of commands without `CLRERR`, no command of the sequence raised an error. -/
def Obligations.NoErrorAtTheEndMeansNoError : Prop :=
  ∀ (words : List Word) (s u : State), (∀ w ∈ words, decode w ≠ .ok .clrerr) →
    transactAll (words.map .issue) s = .next u → u.err = none →
    ∀ (before : List Word) (w : Word) (after : List Word) (t : State),
      words = before ++ w :: after → transactAll ((before ++ [w]).map .issue) s = .next t →
      t.last = none ∧ t.err = none ∧ t.errcmd = s.errcmd

/-- R80: the pseudo-commands compute what they are for, over the registers they name. -/
def Obligations.PseudoCommands : Prop :=
  (∀ (ed es : EReg) (s : State), ∃ t v, runExpansion (expand (.fdbl ed es)) s = .next t ∧
    SetsOnlyE s t ed v ∧ v.val = 2 * (s.getE es).val % P) ∧
  (∀ (ed es1 es2 et : EReg) (s : State), et ≠ es1 → (s.getE es2).val ≠ 0 →
    ∃ t, runExpansion (expand (.fdiv ed es1 es2 et)) s = .next t ∧
      fmul (t.getE ed) (s.getE es2) = s.getE es1 ∧ t.last = none ∧
      ∀ j : EReg, j ≠ ed → j ≠ et → t.getE j = s.getE j) ∧
  (∀ (ed es1 es2 et : EReg) (s : State), (s.getE es2).val = 0 →
    ∃ t, runExpansion (expand (.fdiv ed es1 es2 et)) s = .next t ∧
      OnlyRaises s t .divisionByZero (encode (.finv et es2))) ∧
  (∀ (pd ps : PReg) (s : State), runExpansion (expand (.paddd pd ps)) s = issue (encode (.pdbl pd ps)) s) ∧
  (∀ (pd ps1 ps2 pt : PReg) (s : State), pt ≠ ps1 →
    ∃ t, runExpansion (expand (.psub pd ps1 ps2 pt)) s = .next t ∧
      t.getPt pd = padd s.params (s.getPt ps1) (pneg (s.getPt ps2)) ∧ t.last = none)

/-- R80: an affine point of the curve stored with `STP` and loaded with `LDP` is the point. -/
def Obligations.StorePointThenLoadPoint : Prop :=
  ∀ (pd ps : PReg) (slot : Fin 31) (et1 et2 et3 et4 : EReg) (s : State),
    s.buf.wf = true → et1 ≠ et2 → et3 ≠ et4 → s.getPt ps ≠ .identity → pointValid s.params (s.getPt ps) = true →
    ∃ t u, runExpansion (expand (.stp ps slot et1 et2)) s = .next t ∧ t.last = none ∧
      runExpansion (expand (.ldp pd slot et3 et4)) t = .next u ∧ u.last = none ∧
      u.getPt pd = s.getPt ps
end

