-- ==== Sys2Proof/Laws/Field.lean ====
section
/-!
SUPPORT. The field laws: the power computes the power, `P` is prime (spec/00_scope.md R6), and every field operation is
the one of the integers modulo `P` (spec/40_field.md R100 to R107).
-/

namespace Sys2Proof.Machine

theorem powModFuel_eq (m a fuel k : Nat) (h : k < 2 ^ fuel) : powModFuel m a fuel k = a ^ k % m := by
  induction fuel generalizing k with
  | zero =>
    have : k = 0 := by simpa using h
    simp [powModFuel, this]
  | succ fuel ih =>
    simp only [powModFuel]
    by_cases hk : k = 0
    · simp [hk]
    · have hh := ih (k / 2) (by omega)
      rw [if_neg hk, hh]
      have hsq : a ^ (k / 2) % m * (a ^ (k / 2) % m) % m = a ^ (2 * (k / 2)) % m := by
        rw [← Nat.mul_mod, two_mul, pow_add]
      rcases Nat.mod_two_eq_zero_or_one k with h2 | h2
      · rw [if_neg (by omega), hsq, show 2 * (k / 2) = k by omega]
      · rw [if_pos h2, hsq, Nat.mod_mul_mod, ← pow_succ, show 2 * (k / 2) + 1 = k by omega]

/-- Square-and-multiply computes the power (40_field R107). -/
theorem powMod_eq (m a k : Nat) : powMod m a k = a ^ k % m :=
  powModFuel_eq m a _ k Nat.lt_log2_self

theorem natCast_powMod (m a k : Nat) : ((powMod m a k : Nat) : ZMod m) = (a : ZMod m) ^ k := by
  rw [powMod_eq, ZMod.natCast_mod, Nat.cast_pow]

/-- `P` is prime (00_scope R6): 3 generates the multiplicative group, and the prime factors of `P - 1` are known. -/
theorem P_prime : Nat.Prime P := by
  have ne_one : ∀ k, powMod P 3 k ≠ 1 → (3 : ZMod P) ^ k ≠ 1 := by
    intro k hk h
    have h1 : ((powMod P 3 k : Nat) : ZMod P) = ((1 : Nat) : ZMod P) := by
      rw [natCast_powMod]
      exact_mod_cast h
    rw [ZMod.natCast_eq_natCast_iff', powMod_eq, Nat.mod_mod, ← powMod_eq] at h1
    exact hk (h1.trans (by decide))
  apply lucas_primality P (3 : ZMod P)
  · have h1 : powMod P 3 (P - 1) = 1 := by decide +kernel
    have h2 := natCast_powMod P 3 (P - 1)
    rw [h1] at h2
    exact_mod_cast h2.symm
  · intro q hq hd
    have hf : P - 1 = 2 ^ 192 * (5 * (7 * (98714381 * 166848103))) := by norm_num [P]
    rw [hf] at hd
    have hq' : q = 2 ∨ q = 5 ∨ q = 7 ∨ q = 98714381 ∨ q = 166848103 := by
      rcases (Nat.Prime.dvd_mul hq).1 hd with h | h
      · exact .inl ((Nat.prime_dvd_prime_iff_eq hq Nat.prime_two).1 (hq.dvd_of_dvd_pow h))
      · rcases (Nat.Prime.dvd_mul hq).1 h with h | h
        · exact .inr (.inl ((Nat.prime_dvd_prime_iff_eq hq (by norm_num)).1 h))
        · rcases (Nat.Prime.dvd_mul hq).1 h with h | h
          · exact .inr (.inr (.inl ((Nat.prime_dvd_prime_iff_eq hq (by norm_num)).1 h)))
          · rcases (Nat.Prime.dvd_mul hq).1 h with h | h
            · exact .inr (.inr (.inr (.inl ((Nat.prime_dvd_prime_iff_eq hq (by norm_num)).1 h))))
            · exact .inr (.inr (.inr (.inr ((Nat.prime_dvd_prime_iff_eq hq (by norm_num)).1 h))))
    apply ne_one
    rcases hq' with rfl | rfl | rfl | rfl | rfl <;> decide +kernel

/-- A field element as an element of the integers modulo `P`. -/
def toZ (a : Felt) : ZMod P := (a.val : ZMod P)

theorem toZ_injective {a b : Felt} (h : toZ a = toZ b) : a = b := by
  have h' := (ZMod.natCast_eq_natCast_iff' a.val b.val P).1 h
  rw [Nat.mod_eq_of_lt a.isLt, Nat.mod_eq_of_lt b.isLt] at h'
  exact Fin.ext h'

theorem toZ_inj {a b : Felt} : toZ a = toZ b ↔ a = b := ⟨toZ_injective, fun h => h ▸ rfl⟩

@[simp] theorem toZ_reduceP (v : Nat) : toZ (reduceP v) = (v : ZMod P) := ZMod.natCast_mod v P

@[simp] theorem toZ_fadd (a b : Felt) : toZ (fadd a b) = toZ a + toZ b := by
  rw [fadd, toZ_reduceP, Nat.cast_add]
  rfl

@[simp] theorem toZ_fsub (a b : Felt) : toZ (fsub a b) = toZ a - toZ b := by
  simp only [fsub, toZ_reduceP]
  rw [Nat.cast_sub (by omega), Nat.cast_add, ZMod.natCast_self, add_zero]
  rfl

@[simp] theorem toZ_fneg (a : Felt) : toZ (fneg a) = -toZ a := by
  simp only [fneg, toZ_reduceP]
  rw [Nat.cast_sub (by omega), ZMod.natCast_self, zero_sub]
  rfl

@[simp] theorem toZ_fmul (a b : Felt) : toZ (fmul a b) = toZ a * toZ b := by
  rw [fmul, toZ_reduceP, Nat.cast_mul]
  rfl

@[simp] theorem toZ_fsqr (a : Felt) : toZ (fsqr a) = toZ a ^ 2 := by
  simp [fsqr, pow_two]

@[simp] theorem toZ_fpow (a : Felt) (k : Nat) : toZ (fpow a k) = toZ a ^ k := by
  rw [fpow, toZ_reduceP, natCast_powMod]
  rfl

theorem toZ_eq_zero {a : Felt} : toZ a = 0 ↔ a.val = 0 := by
  rw [toZ, ZMod.natCast_eq_zero_iff]
  exact ⟨fun h => Nat.eq_zero_of_dvd_of_lt h a.isLt, fun h => h ▸ dvd_zero P⟩

/-- The Fermat power inverts, and takes 0 to 0 (40_field R106). -/
@[simp] theorem toZ_finv (a : Felt) : toZ (finv a) = (toZ a)⁻¹ := by
  have : Fact (Nat.Prime P) := ⟨P_prime⟩
  rw [finv, toZ_fpow]
  by_cases h : toZ a = 0
  · rw [h, inv_zero, zero_pow (by decide)]
  · apply eq_inv_of_mul_eq_one_left
    rw [← pow_succ, show P - 2 + 1 = P - 1 by decide]
    exact ZMod.pow_card_sub_one_eq_one h

end Sys2Proof.Machine
end

