-- ==== Sys2Proof/Laws/Curve.lean ====
section
/-!
SUPPORT. The curve laws: the point operations keep points on the curve (spec/42_curve.md R162), the recursion of the scalar
multiplier (R163), and the correspondence with the group of a Weierstrass curve over the integers modulo `P`.
-/

namespace Sys2Proof.Machine

/-- The curve as a Weierstrass curve over the integers modulo `P` (42_curve R150). -/
def weierstrass (p : Params) : WeierstrassCurve.Affine (ZMod P) :=
  { a₁ := 0, a₂ := 0, a₃ := 0, a₄ := toZ p.alpha, a₆ := toZ p.beta }

/-- The membership test is the curve's equation. -/
theorem onCurve_iff (p : Params) (x y : Felt) :
    onCurve p x y = true ↔ (weierstrass p).Equation (toZ x) (toZ y) := by
  rw [WeierstrassCurve.Affine.equation_iff, onCurve, decide_eq_true_eq, ← toZ_inj]
  simp only [weierstrass, toZ_fsqr, toZ_fadd, toZ_fmul]
  constructor <;> intro h <;> linear_combination h

theorem negY_weierstrass (p : Params) (x y : ZMod P) : (weierstrass p).negY x y = -y := by
  simp [WeierstrassCurve.Affine.negY, weierstrass]

/-- Negation of a coordinate pair (42_curve R151). -/
theorem pointValid_pneg {p : Params} {a : Point} (h : pointValid p a = true) : pointValid p (pneg a) = true := by
  cases a with
  | identity => rfl
  | affine x y =>
    simp only [pneg, pointValid, onCurve_iff, toZ_fneg] at h ⊢
    rw [← negY_weierstrass p (toZ x)]
    exact (WeierstrassCurve.Affine.equation_neg _ _).2 h

theorem fneg_fneg (a : Felt) : fneg (fneg a) = a := by
  rw [← toZ_inj]
  simp

theorem pneg_pneg (a : Point) : pneg (pneg a) = a := by
  cases a <;> simp [pneg, fneg_fneg]

/-- The coordinates of the third point of a line are the curve's addition formulas. -/
theorem lineThird_eq (p : Params) (lam x1 y1 x2 : Felt) :
    ∃ x3 y3, lineThird lam x1 y1 x2 = .affine x3 y3 ∧
      toZ x3 = (weierstrass p).addX (toZ x1) (toZ x2) (toZ lam) ∧
      toZ y3 = (weierstrass p).addY (toZ x1) (toZ x2) (toZ y1) (toZ lam) := by
  refine ⟨_, _, rfl, ?_, ?_⟩
  · simp [WeierstrassCurve.Affine.addX, weierstrass]
  · simp [WeierstrassCurve.Affine.addY, WeierstrassCurve.Affine.negAddY, WeierstrassCurve.Affine.addX,
      WeierstrassCurve.Affine.negY, weierstrass]
    ring

theorem two_ne_zero_P [Fact (Nat.Prime P)] : (2 : ZMod P) ≠ 0 := by
  intro h
  have h2 : ((2 : Nat) : ZMod P) = 0 := by exact_mod_cast h
  rw [ZMod.natCast_eq_zero_iff] at h2
  exact absurd (Nat.le_of_dvd (by decide) h2) (by decide)

section
variable [Fact (Nat.Prime P)]

/-- A y-coordinate equal to its own negation is 0, because `P` is odd (42_curve R161). -/
theorem toZ_eq_neg_self {y : Felt} : toZ y = -toZ y ↔ y.val = 0 := by
  rw [← toZ_eq_zero]
  constructor
  · intro h
    have h2 : 2 * toZ y = 0 := by linear_combination h
    exact (mul_eq_zero.1 h2).resolve_left two_ne_zero_P
  · intro h
    rw [h, neg_zero]

theorem slope_chord (p : Params) {x1 y1 x2 y2 : Felt} (h : x1 ≠ x2) :
    (weierstrass p).slope (toZ x1) (toZ x2) (toZ y1) (toZ y2) = toZ (chordSlope x1 y1 x2 y2) := by
  have hz : toZ x1 ≠ toZ x2 := fun hx => h (toZ_injective hx)
  rw [WeierstrassCurve.Affine.slope_of_X_ne hz]
  have h1 : toZ x1 - toZ x2 ≠ 0 := sub_ne_zero.2 hz
  have h2 : toZ x2 - toZ x1 ≠ 0 := sub_ne_zero.2 (Ne.symm hz)
  simp only [chordSlope, toZ_fmul, toZ_fsub, toZ_finv]
  field_simp
  ring

theorem slope_tangent (p : Params) {x1 y1 : Felt} (h : y1.val ≠ 0) :
    (weierstrass p).slope (toZ x1) (toZ x1) (toZ y1) (toZ y1) = toZ (tangentSlope p x1 y1) := by
  have hy : toZ y1 ≠ (weierstrass p).negY (toZ x1) (toZ y1) := by
    rw [negY_weierstrass]
    exact fun hn => h (toZ_eq_neg_self.1 hn)
  rw [WeierstrassCurve.Affine.slope_of_Y_ne rfl hy, negY_weierstrass]
  simp only [tangentSlope, weierstrass, toZ_fmul, toZ_fadd, toZ_fsqr, toZ_finv, toZ_reduceP]
  rw [sub_neg_eq_add]
  push_cast
  ring

/-- Doubling keeps a point on the curve (42_curve R162). -/
theorem pointValid_pdbl {p : Params} {a : Point} (h : pointValid p a = true) : pointValid p (pdbl p a) = true := by
  cases a with
  | identity => rfl
  | affine x1 y1 =>
    simp only [pdbl]
    split
    · rfl
    · rename_i hy
      obtain ⟨x3, y3, h3, hx3, hy3⟩ := lineThird_eq p (tangentSlope p x1 y1) x1 y1 x1
      rw [h3]
      simp only [pointValid, onCurve_iff] at h ⊢
      rw [hx3, hy3, ← slope_tangent p hy]
      refine WeierstrassCurve.Affine.equation_add h h fun hn => hy ?_
      rw [negY_weierstrass] at hn
      exact toZ_eq_neg_self.1 hn.2

/-- Addition keeps points on the curve (42_curve R162). -/
theorem pointValid_padd {p : Params} {a b : Point} (ha : pointValid p a = true) (hb : pointValid p b = true) :
    pointValid p (padd p a b) = true := by
  cases a with
  | identity => exact hb
  | affine x1 y1 =>
    cases b with
    | identity => exact ha
    | affine x2 y2 =>
      simp only [padd]
      split
      · split
        · exact pointValid_pdbl ha
        · rfl
      · rename_i hx
        obtain ⟨x3, y3, h3, hx3, hy3⟩ := lineThird_eq p (chordSlope x1 y1 x2 y2) x1 y1 x2
        rw [h3]
        simp only [pointValid, onCurve_iff] at ha hb ⊢
        rw [hx3, hy3, ← slope_chord p hx]
        exact WeierstrassCurve.Affine.equation_add ha hb fun hn => hx (toZ_injective hn.1)

end

/-- Doubling is adding a point to itself (42_curve R161). -/
theorem pdbl_eq_padd_self (p : Params) (a : Point) : pdbl p a = padd p a a := by
  cases a with
  | identity => rfl
  | affine x y =>
    simp only [padd, if_true, true_and]
    by_cases hy : y.val = 0
    · simp [pdbl, hy]
    · rw [if_pos hy]

@[simp] theorem padd_identity_left (p : Params) (a : Point) : padd p .identity a = a := rfl

@[simp] theorem padd_identity_right (p : Params) (a : Point) : padd p a .identity = a := by
  cases a <;> rfl

/-- More fuel than bits changes nothing. -/
theorem smulFuel_eq (p : Params) (a : Point) (fuel fuel' k : Nat) (h : k < 2 ^ fuel) (h' : k < 2 ^ fuel') :
    smulFuel p a fuel k = smulFuel p a fuel' k := by
  induction fuel generalizing fuel' k with
  | zero =>
    have hk : k = 0 := by simpa using h
    subst hk
    cases fuel' <;> simp [smulFuel]
  | succ fuel ih =>
    cases fuel' with
    | zero =>
      have hk : k = 0 := by simpa using h'
      subst hk
      simp [smulFuel]
    | succ fuel' =>
      simp only [smulFuel]
      rw [ih fuel' (k / 2) (by omega) (by omega)]

@[simp] theorem smul_zero (p : Params) (a : Point) : smul p 0 a = .identity := by
  simp [smul, smulFuel]

/-- The recursion of the scalar multiplier (42_curve R163). -/
theorem smul_step (p : Params) {k : Nat} (a : Point) (hk : k ≠ 0) :
    smul p k a =
      if k % 2 = 1 then padd p (padd p (smul p (k / 2) a) (smul p (k / 2) a)) a
      else padd p (smul p (k / 2) a) (smul p (k / 2) a) := by
  have hlt : k / 2 < 2 ^ k.log2 := by
    have := Nat.lt_log2_self (n := k)
    omega
  rw [smul, smulFuel, if_neg hk, smulFuel_eq p a k.log2 ((k / 2).log2 + 1) (k / 2) hlt Nat.lt_log2_self]
  rfl

/-- Scalar multiplication keeps a point on the curve (42_curve R162). -/
theorem pointValid_smul [Fact (Nat.Prime P)] {p : Params} {a : Point} (k : Nat) (h : pointValid p a = true) :
    pointValid p (smul p k a) = true := by
  induction k using Nat.strongRecOn with
  | ind k ih =>
    by_cases hk : k = 0
    · rw [hk, smul_zero]
      rfl
    · rw [smul_step p a hk]
      have hh := ih (k / 2) (by omega)
      split
      · exact pointValid_padd (pointValid_padd hh hh) h
      · exact pointValid_padd hh hh

end Sys2Proof.Machine
end

