-- ==== Sys2Proof/Laws/State.lean ====
section
/-!
SUPPORT. What each update of the state does to each field, and the spec lemmas of error entry and of the shared end of a
command.
-/

namespace Sys2Proof.Machine

@[simp] theorem State.setE_params (s : State) (i : EReg) (v : Felt) : (s.setE i v).params = s.params := rfl
@[simp] theorem State.setE_e (s : State) (i : EReg) (v : Felt) : (s.setE i v).e = s.e.set i v := rfl
@[simp] theorem State.setE_pt (s : State) (i : EReg) (v : Felt) : (s.setE i v).pt = s.pt := rfl
@[simp] theorem State.setE_flag (s : State) (i : EReg) (v : Felt) : (s.setE i v).flag = s.flag := rfl
@[simp] theorem State.setE_last (s : State) (i : EReg) (v : Felt) : (s.setE i v).last = s.last := rfl
@[simp] theorem State.setE_err (s : State) (i : EReg) (v : Felt) : (s.setE i v).err = s.err := rfl
@[simp] theorem State.setE_errcmd (s : State) (i : EReg) (v : Felt) : (s.setE i v).errcmd = s.errcmd := rfl
@[simp] theorem State.setE_buf (s : State) (i : EReg) (v : Felt) : (s.setE i v).buf = s.buf := rfl
@[simp] theorem State.setE_pending (s : State) (i : EReg) (v : Felt) : (s.setE i v).pending = s.pending := rfl
@[simp] theorem State.setE_answers (s : State) (i : EReg) (v : Felt) : (s.setE i v).answers = s.answers := rfl

@[simp] theorem State.setPt_params (s : State) (i : PReg) (q : Point) : (s.setPt i q).params = s.params := rfl
@[simp] theorem State.setPt_e (s : State) (i : PReg) (q : Point) : (s.setPt i q).e = s.e := rfl
@[simp] theorem State.setPt_pt (s : State) (i : PReg) (q : Point) : (s.setPt i q).pt = s.pt.set i q := rfl
@[simp] theorem State.setPt_flag (s : State) (i : PReg) (q : Point) : (s.setPt i q).flag = s.flag := rfl
@[simp] theorem State.setPt_last (s : State) (i : PReg) (q : Point) : (s.setPt i q).last = s.last := rfl
@[simp] theorem State.setPt_err (s : State) (i : PReg) (q : Point) : (s.setPt i q).err = s.err := rfl
@[simp] theorem State.setPt_errcmd (s : State) (i : PReg) (q : Point) : (s.setPt i q).errcmd = s.errcmd := rfl
@[simp] theorem State.setPt_buf (s : State) (i : PReg) (q : Point) : (s.setPt i q).buf = s.buf := rfl
@[simp] theorem State.setPt_pending (s : State) (i : PReg) (q : Point) : (s.setPt i q).pending = s.pending := rfl
@[simp] theorem State.setPt_answers (s : State) (i : PReg) (q : Point) : (s.setPt i q).answers = s.answers := rfl

@[simp] theorem State.setFlag_params (s : State) (b : Bool) : (s.setFlag b).params = s.params := rfl
@[simp] theorem State.setFlag_e (s : State) (b : Bool) : (s.setFlag b).e = s.e := rfl
@[simp] theorem State.setFlag_pt (s : State) (b : Bool) : (s.setFlag b).pt = s.pt := rfl
@[simp] theorem State.setFlag_flag (s : State) (b : Bool) : (s.setFlag b).flag = b := rfl
@[simp] theorem State.setFlag_last (s : State) (b : Bool) : (s.setFlag b).last = s.last := rfl
@[simp] theorem State.setFlag_err (s : State) (b : Bool) : (s.setFlag b).err = s.err := rfl
@[simp] theorem State.setFlag_errcmd (s : State) (b : Bool) : (s.setFlag b).errcmd = s.errcmd := rfl
@[simp] theorem State.setFlag_buf (s : State) (b : Bool) : (s.setFlag b).buf = s.buf := rfl
@[simp] theorem State.setFlag_pending (s : State) (b : Bool) : (s.setFlag b).pending = s.pending := rfl
@[simp] theorem State.setFlag_answers (s : State) (b : Bool) : (s.setFlag b).answers = s.answers := rfl

@[simp] theorem State.setBuf_params (s : State) (m : Memory) : (s.setBuf m).params = s.params := rfl
@[simp] theorem State.setBuf_e (s : State) (m : Memory) : (s.setBuf m).e = s.e := rfl
@[simp] theorem State.setBuf_pt (s : State) (m : Memory) : (s.setBuf m).pt = s.pt := rfl
@[simp] theorem State.setBuf_flag (s : State) (m : Memory) : (s.setBuf m).flag = s.flag := rfl
@[simp] theorem State.setBuf_last (s : State) (m : Memory) : (s.setBuf m).last = s.last := rfl
@[simp] theorem State.setBuf_err (s : State) (m : Memory) : (s.setBuf m).err = s.err := rfl
@[simp] theorem State.setBuf_errcmd (s : State) (m : Memory) : (s.setBuf m).errcmd = s.errcmd := rfl
@[simp] theorem State.setBuf_buf (s : State) (m : Memory) : (s.setBuf m).buf = m := rfl
@[simp] theorem State.setBuf_pending (s : State) (m : Memory) : (s.setBuf m).pending = s.pending := rfl
@[simp] theorem State.setBuf_answers (s : State) (m : Memory) : (s.setBuf m).answers = s.answers := rfl

@[simp] theorem State.complete_params (s : State) : (s.complete).params = s.params := rfl
@[simp] theorem State.complete_e (s : State) : (s.complete).e = s.e := rfl
@[simp] theorem State.complete_pt (s : State) : (s.complete).pt = s.pt := rfl
@[simp] theorem State.complete_flag (s : State) : (s.complete).flag = s.flag := rfl
@[simp] theorem State.complete_last (s : State) : (s.complete).last = none := rfl
@[simp] theorem State.complete_err (s : State) : (s.complete).err = s.err := rfl
@[simp] theorem State.complete_errcmd (s : State) : (s.complete).errcmd = s.errcmd := rfl
@[simp] theorem State.complete_buf (s : State) : (s.complete).buf = s.buf := rfl
@[simp] theorem State.complete_pending (s : State) : (s.complete).pending = s.pending := rfl
@[simp] theorem State.complete_answers (s : State) : (s.complete).answers = s.answers := rfl

@[simp] theorem State.acknowledge_params (s : State) : (s.acknowledge).params = s.params := rfl
@[simp] theorem State.acknowledge_e (s : State) : (s.acknowledge).e = s.e := rfl
@[simp] theorem State.acknowledge_pt (s : State) : (s.acknowledge).pt = s.pt := rfl
@[simp] theorem State.acknowledge_flag (s : State) : (s.acknowledge).flag = s.flag := rfl
@[simp] theorem State.acknowledge_last (s : State) : (s.acknowledge).last = s.last := rfl
@[simp] theorem State.acknowledge_err (s : State) : (s.acknowledge).err = none := rfl
@[simp] theorem State.acknowledge_errcmd (s : State) : (s.acknowledge).errcmd = 0#32 := rfl
@[simp] theorem State.acknowledge_buf (s : State) : (s.acknowledge).buf = s.buf := rfl
@[simp] theorem State.acknowledge_pending (s : State) : (s.acknowledge).pending = s.pending := rfl
@[simp] theorem State.acknowledge_answers (s : State) : (s.acknowledge).answers = s.answers := rfl

@[simp] theorem State.reply_params (s : State) (x : Answer) : (s.reply x).params = s.params := rfl
@[simp] theorem State.reply_e (s : State) (x : Answer) : (s.reply x).e = s.e := rfl
@[simp] theorem State.reply_pt (s : State) (x : Answer) : (s.reply x).pt = s.pt := rfl
@[simp] theorem State.reply_flag (s : State) (x : Answer) : (s.reply x).flag = s.flag := rfl
@[simp] theorem State.reply_last (s : State) (x : Answer) : (s.reply x).last = s.last := rfl
@[simp] theorem State.reply_err (s : State) (x : Answer) : (s.reply x).err = s.err := rfl
@[simp] theorem State.reply_errcmd (s : State) (x : Answer) : (s.reply x).errcmd = s.errcmd := rfl
@[simp] theorem State.reply_buf (s : State) (x : Answer) : (s.reply x).buf = s.buf := rfl
@[simp] theorem State.reply_pending (s : State) (x : Answer) : (s.reply x).pending = s.pending := rfl
@[simp] theorem State.reply_answers (s : State) (x : Answer) : (s.reply x).answers = s.answers ++ [x] := rfl

@[simp] theorem State.raise_params (s : State) (k : ErrorKind) (w : Word) : (s.raise k w).params = s.params := by
  unfold State.raise; split <;> rfl
@[simp] theorem State.raise_e (s : State) (k : ErrorKind) (w : Word) : (s.raise k w).e = s.e := by
  unfold State.raise; split <;> rfl
@[simp] theorem State.raise_pt (s : State) (k : ErrorKind) (w : Word) : (s.raise k w).pt = s.pt := by
  unfold State.raise; split <;> rfl
@[simp] theorem State.raise_flag (s : State) (k : ErrorKind) (w : Word) : (s.raise k w).flag = s.flag := by
  unfold State.raise; split <;> rfl
@[simp] theorem State.raise_last (s : State) (k : ErrorKind) (w : Word) : (s.raise k w).last = some k := by
  unfold State.raise; split <;> rfl
@[simp] theorem State.raise_buf (s : State) (k : ErrorKind) (w : Word) : (s.raise k w).buf = s.buf := by
  unfold State.raise; split <;> rfl
@[simp] theorem State.raise_pending (s : State) (k : ErrorKind) (w : Word) : (s.raise k w).pending = s.pending := by
  unfold State.raise; split <;> rfl
@[simp] theorem State.raise_answers (s : State) (k : ErrorKind) (w : Word) : (s.raise k w).answers = s.answers := by
  unfold State.raise; split <;> rfl

/-- The first error is latched, a later one keeps it (60_exceptions R244). -/
theorem State.raise_err (s : State) (k : ErrorKind) (w : Word) :
    (s.raise k w).err = match s.err with | none => some k | some first => some first := by
  unfold State.raise; split <;> simp_all

/-- The word of the first error is latched, a later one keeps it (60_exceptions R244). -/
theorem State.raise_errcmd (s : State) (k : ErrorKind) (w : Word) :
    (s.raise k w).errcmd = match s.err with | none => w | some _ => s.errcmd := by
  unfold State.raise; split <;> simp_all

theorem State.raise_err_ne_none (s : State) (k : ErrorKind) (w : Word) : (s.raise k w).err ≠ none := by
  rw [State.raise_err]; split <;> simp

@[simp] theorem State.afterReset_params (s : State) (r : Vector Byte 1024) : (s.afterReset r).params = s.params := rfl
@[simp] theorem State.afterReset_e (s : State) (r : Vector Byte 1024) : (s.afterReset r).e = Vector.replicate 16 0 := rfl
@[simp] theorem State.afterReset_pt (s : State) (r : Vector Byte 1024) : (s.afterReset r).pt = Vector.replicate 8 .identity := rfl
@[simp] theorem State.afterReset_flag (s : State) (r : Vector Byte 1024) : (s.afterReset r).flag = false := rfl
@[simp] theorem State.afterReset_last (s : State) (r : Vector Byte 1024) : (s.afterReset r).last = none := rfl
@[simp] theorem State.afterReset_err (s : State) (r : Vector Byte 1024) : (s.afterReset r).err = none := rfl
@[simp] theorem State.afterReset_errcmd (s : State) (r : Vector Byte 1024) : (s.afterReset r).errcmd = 0#32 := rfl
@[simp] theorem State.afterReset_buf (s : State) (r : Vector Byte 1024) : (s.afterReset r).buf = Memory.ofBytes r := rfl
@[simp] theorem State.afterReset_pending (s : State) (r : Vector Byte 1024) : (s.afterReset r).pending = s.pending := rfl
@[simp] theorem State.afterReset_answers (s : State) (r : Vector Byte 1024) : (s.afterReset r).answers = s.answers := rfl

/-- A register reads the value last written to it, and every other register is unchanged. -/
@[simp] theorem State.getE_setE (s : State) (i j : EReg) (v : Felt) :
    (s.setE i v).getE j = if j = i then v else s.getE j := by
  simp only [State.getE, State.setE, Fin.getElem_fin, Vector.getElem_set, Fin.ext_iff, eq_comm (a := i.val)]

@[simp] theorem State.getPt_setPt (s : State) (i j : PReg) (q : Point) :
    (s.setPt i q).getPt j = if j = i then q else s.getPt j := by
  simp only [State.getPt, State.setPt, Fin.getElem_fin, Vector.getElem_set, Fin.ext_iff, eq_comm (a := i.val)]

@[simp] theorem State.getPt_setE (s : State) (i : EReg) (v : Felt) (j : PReg) : (s.setE i v).getPt j = s.getPt j := rfl
@[simp] theorem State.getE_setPt (s : State) (i : PReg) (q : Point) (j : EReg) : (s.setPt i q).getE j = s.getE j := rfl
@[simp] theorem State.getE_setFlag (s : State) (b : Bool) (j : EReg) : (s.setFlag b).getE j = s.getE j := rfl
@[simp] theorem State.getPt_setFlag (s : State) (b : Bool) (j : PReg) : (s.setFlag b).getPt j = s.getPt j := rfl
@[simp] theorem State.getE_setBuf (s : State) (m : Memory) (j : EReg) : (s.setBuf m).getE j = s.getE j := rfl
@[simp] theorem State.getPt_setBuf (s : State) (m : Memory) (j : PReg) : (s.setBuf m).getPt j = s.getPt j := rfl
@[simp] theorem State.getE_complete (s : State)  (j : EReg) : (s.complete).getE j = s.getE j := rfl
@[simp] theorem State.getPt_complete (s : State)  (j : PReg) : (s.complete).getPt j = s.getPt j := rfl
@[simp] theorem State.getE_acknowledge (s : State)  (j : EReg) : (s.acknowledge).getE j = s.getE j := rfl
@[simp] theorem State.getPt_acknowledge (s : State)  (j : PReg) : (s.acknowledge).getPt j = s.getPt j := rfl
@[simp] theorem State.getE_reply (s : State) (x : Answer) (j : EReg) : (s.reply x).getE j = s.getE j := rfl
@[simp] theorem State.getPt_reply (s : State) (x : Answer) (j : PReg) : (s.reply x).getPt j = s.getPt j := rfl

@[simp] theorem State.getE_raise (s : State) (k : ErrorKind) (w : Word) (j : EReg) :
    (s.raise k w).getE j = s.getE j := by
  simp [State.getE]

@[simp] theorem State.getPt_raise (s : State) (k : ErrorKind) (w : Word) (j : PReg) :
    (s.raise k w).getPt j = s.getPt j := by
  simp [State.getPt]

@[simp] theorem State.getE_afterReset (s : State) (r : Vector Byte 1024) (j : EReg) : (s.afterReset r).getE j = 0 := by
  simp [State.getE]

@[simp] theorem State.getPt_afterReset (s : State) (r : Vector Byte 1024) (j : PReg) :
    (s.afterReset r).getPt j = .identity := by
  simp [State.getPt]

/-- Two states agree on every E register exactly when they hold the same file. -/
theorem State.e_ext {s t : State} (h : ∀ j : EReg, s.getE j = t.getE j) : s.e = t.e := by
  ext i hi
  exact congrArg Fin.val (h ⟨i, hi⟩)

/-- Two states agree on every P register exactly when they hold the same file. -/
theorem State.pt_ext {s t : State} (h : ∀ j : PReg, s.getPt j = t.getPt j) : s.pt = t.pt := by
  ext i hi
  exact h ⟨i, hi⟩

/-- A command that raised no error keeps its writes and completes (60_exceptions R245). -/
@[simp] theorem settle_ok (i : Instr) (s t : State) : settle i s (.ok t) = .next t.complete := rfl

/-- A command that raised an error enters it from the state before the command (60_exceptions R244). -/
@[simp] theorem settle_error (i : Instr) (s : State) (k : ErrorKind) :
    settle i s (.error k) = .next (s.raise k (encode i)) := rfl

/-- Everything the shared end of a command can do. -/
theorem settle_cases {i : Instr} {s t : State} {effect : Except ErrorKind State} (h : settle i s effect = .next t) :
    (∃ u, effect = .ok u ∧ t = u.complete) ∨ (∃ k, effect = .error k ∧ t = s.raise k (encode i)) := by
  cases effect with
  | ok u => exact .inl ⟨u, rfl, by simpa using h.symm⟩
  | error k => exact .inr ⟨k, rfl, by simpa using h.symm⟩

end Sys2Proof.Machine
end

