-- ==== Sys2Proof/Laws/Memory.lean ====
section
/-!
SUPPORT. The laws of the operand buffer: a read returns the latest write (spec/20_memory.md R59), every operation keeps the
canonical form, and a slot reads back what was stored to it (spec/41_loadstore.md R144).
-/

namespace Sys2Proof.Machine

/-- An address below the first listed one reads as unlisted. -/
theorem Memory.read_below {m : Memory} {lo c : Nat} (h : Memory.wfFrom lo m = true) (hc : c < lo) :
    m.read c = unlisted := by
  induction m generalizing lo with
  | nil => rfl
  | cons x m ih =>
    simp only [Memory.wfFrom, Bool.and_eq_true, decide_eq_true_eq] at h
    simp only [Memory.read]
    rw [if_neg (by omega)]
    exact ih h.2 (by omega)

/-- The canonical form from an address up is one from every lower address up. -/
theorem Memory.wfFrom_mono {m : Memory} {lo hi : Nat} (h : Memory.wfFrom hi m = true) (hl : lo ≤ hi) :
    Memory.wfFrom lo m = true := by
  cases m with
  | nil => rfl
  | cons x m =>
    simp only [Memory.wfFrom, Bool.and_eq_true, decide_eq_true_eq] at h ⊢
    exact ⟨⟨⟨by omega, h.1.1.2⟩, h.1.2⟩, h.2⟩

/-- A read returns the byte last written to the address, and every other address is unchanged (20_memory R56). -/
theorem Memory.read_write (m : Memory) (a b : Nat) (v : Byte) (h : Memory.wfFrom 0 m = true) :
    (m.write a v).read b = if b = a then v else m.read b := by
  suffices hs : ∀ (m : Memory) lo, Memory.wfFrom lo m = true →
      (m.write a v).read b = if b = a then v else m.read b from hs m 0 h
  intro m
  induction m with
  | nil =>
    intro lo _
    simp only [Memory.write, Memory.read]
    split <;> split <;> simp_all [Memory.read]
  | cons x m ih =>
    intro lo hw
    obtain ⟨c, y⟩ := x
    simp only [Memory.wfFrom, Bool.and_eq_true, decide_eq_true_eq] at hw
    have hb := fun d => Memory.read_below (c := d) hw.2
    simp only [Memory.write]
    by_cases h1 : a < c
    · rw [if_pos h1]
      by_cases hv : v = unlisted
      · rw [if_pos hv]
        by_cases hba : b = a
        · rw [if_pos hba, hv]
          simp only [Memory.read]
          rw [if_neg (by omega)]
          exact hb b (by omega)
        · rw [if_neg hba]
      · rw [if_neg hv]
        simp only [Memory.read]
    · rw [if_neg h1]
      by_cases h2 : a = c
      · subst h2
        rw [if_pos rfl]
        by_cases hv : v = unlisted
        · rw [if_pos hv]
          by_cases hba : b = a
          · rw [if_pos hba, hv]
            exact hb b (by omega)
          · rw [if_neg hba]
            simp only [Memory.read]
            rw [if_neg hba]
        · rw [if_neg hv]
          simp only [Memory.read]
          split <;> rfl
      · rw [if_neg h2]
        simp only [Memory.read]
        rw [ih (c + 1) hw.2]
        split <;> split <;> first | rfl | omega

/-- A write keeps the canonical form. -/
theorem Memory.wf_write {m : Memory} {a : Nat} (v : Byte) (ha : a < 1024) (h : m.wf = true) :
    (m.write a v).wf = true := by
  suffices hs : ∀ (m : Memory) lo, lo ≤ a → Memory.wfFrom lo m = true → Memory.wfFrom lo (m.write a v) = true from
    hs m 0 (Nat.zero_le _) h
  intro m
  induction m with
  | nil =>
    intro lo hlo _
    simp only [Memory.write]
    split <;> simp_all [Memory.wfFrom]
  | cons x m ih =>
    intro lo hlo hw
    obtain ⟨c, y⟩ := x
    simp only [Memory.wfFrom, Bool.and_eq_true, decide_eq_true_eq] at hw
    obtain ⟨⟨⟨h1, h2⟩, h3⟩, h4⟩ := hw
    simp only [Memory.write]
    split
    · split
      · simp [Memory.wfFrom, h1, h2, h3, h4]
      · have : a + 1 ≤ c := by omega
        simp_all [Memory.wfFrom]
    · split
      · rename_i h5 h6
        subst h6
        split
        · exact Memory.wfFrom_mono h4 (by omega)
        · simp_all [Memory.wfFrom]
      · have hi := ih (c + 1) (by omega) h4
        simp [Memory.wfFrom, h1, h2, h3, hi]

@[simp] theorem Memory.wf_nil : Memory.wf [] = true := rfl

theorem Memory.wf_writeBytes {m : Memory} {a : Nat} (vs : List Byte) (ha : a + vs.length ≤ 1024) (h : m.wf = true) :
    (m.writeBytes a vs).wf = true := by
  induction vs generalizing m a with
  | nil => exact h
  | cons v vs ih =>
    simp only [List.length_cons] at ha
    exact ih (by omega) (Memory.wf_write v (by omega) h)

/-- A store of bytes puts the `k`-th byte at the `k`-th address and leaves every other address alone. -/
theorem Memory.read_writeBytes {m : Memory} {a : Nat} (vs : List Byte) (b : Nat) (ha : a + vs.length ≤ 1024)
    (h : m.wf = true) :
    (m.writeBytes a vs).read b = if a ≤ b ∧ b < a + vs.length then vs.getD (b - a) 0 else m.read b := by
  induction vs generalizing m a with
  | nil =>
    simp only [Memory.writeBytes, List.length_nil]
    rw [if_neg (by omega)]
  | cons v vs ih =>
    simp only [List.length_cons] at ha ⊢
    simp only [Memory.writeBytes]
    rw [ih (by omega) (Memory.wf_write v (by omega) h), Memory.read_write _ _ _ _ h]
    by_cases hb : b = a
    · subst hb
      rw [if_neg (by omega), if_pos rfl, if_pos (by omega)]
      simp
    · rw [if_neg hb]
      by_cases hr : a ≤ b ∧ b < a + (vs.length + 1)
      · rw [if_pos hr, if_pos (by omega)]
        obtain ⟨d, rfl⟩ : ∃ d, b = a + 1 + d := ⟨b - a - 1, by omega⟩
        rw [show a + 1 + d - (a + 1) = d by omega, show a + 1 + d - a = d + 1 by omega]
        simp
      · rw [if_neg hr, if_neg (by omega)]

/-- Reading back a block of bytes just stored gives the bytes. -/
theorem Memory.readBytes_writeBytes {m : Memory} {a : Nat} (vs : List Byte) (ha : a + vs.length ≤ 1024)
    (h : m.wf = true) : (m.writeBytes a vs).readBytes a vs.length = vs := by
  apply List.ext_getElem
  · simp [Memory.readBytes]
  · intro k h1 h2
    simp only [Memory.readBytes, List.getElem_map, List.getElem_range]
    rw [Memory.read_writeBytes vs _ ha h, if_pos (by omega)]
    simp [h2]

/-- Two buffers in canonical form that read the same at every address are the same data. -/
theorem Memory.ext_read {m n : Memory} (hm : m.wf = true) (hn : n.wf = true) (h : ∀ a, m.read a = n.read a) :
    m = n := by
  suffices hs : ∀ (m n : Memory) lo, Memory.wfFrom lo m = true → Memory.wfFrom lo n = true →
      (∀ a, m.read a = n.read a) → m = n from hs m n 0 hm hn h
  intro m
  induction m with
  | nil =>
    intro n lo _ hn h
    cases n with
    | nil => rfl
    | cons x n =>
      simp only [Memory.wfFrom, Bool.and_eq_true, decide_eq_true_eq] at hn
      exact absurd (by simpa [Memory.read] using (h x.1).symm) hn.1.2
  | cons x m ih =>
    intro n lo hm hn h
    cases n with
    | nil =>
      simp only [Memory.wfFrom, Bool.and_eq_true, decide_eq_true_eq] at hm
      exact absurd (by simpa [Memory.read] using h x.1) hm.1.2
    | cons y n =>
      obtain ⟨a, v⟩ := x
      obtain ⟨b, u⟩ := y
      simp only [Memory.wfFrom, Bool.and_eq_true, decide_eq_true_eq] at hm hn
      have hbm := fun d => Memory.read_below (c := d) hm.2
      have hbn := fun d => Memory.read_below (c := d) hn.2
      have ha := h a
      have hb := h b
      simp only [Memory.read] at ha hb h
      have hab : a = b := by
        rcases Nat.lt_trichotomy a b with hlt | heq | hgt
        · rw [if_neg (show ¬ a = b by omega), hbn a (by omega)] at ha
          exact absurd (by simpa using ha) hm.1.2
        · exact heq
        · rw [if_neg (show ¬ b = a by omega), hbm b (by omega)] at hb
          exact absurd (by simpa using hb.symm) hn.1.2
      subst hab
      have huv : v = u := by simpa using ha
      subst huv
      congr 1
      refine ih n (a + 1) hm.2 hn.2 fun c => ?_
      by_cases hc : c = a
      · rw [hc, hbm a (by omega), hbn a (by omega)]
      · simpa [hc] using h c

theorem Memory.wf_ofBytes (bytes : Vector Byte 1024) : (Memory.ofBytes bytes).wf = true :=
  Memory.wf_writeBytes _ (by simp) rfl

/-- The buffer made of 1024 bytes reads exactly those bytes (10_state R36: every content is admitted). -/
theorem Memory.read_ofBytes (bytes : Vector Byte 1024) (a : Addr) : (Memory.ofBytes bytes).read a.val = bytes[a] := by
  rw [Memory.ofBytes, Memory.read_writeBytes _ _ (by simp) rfl, if_pos (by simp)]
  simp

end Sys2Proof.Machine
end

