-- ==== Sys2Proof/Laws/PerInstr.lean ====
section
/-!
SUPPORT. Per command: the decoder gives back what the encoder wrote, every operand at every value (spec/30_encoding.md R75,
R76). One lemma per constructor of `Instr`, over the fields of a packed word.
-/

namespace Sys2Proof

section
variable {op a b c low : Nat}

/-- The number a packed word holds: the fields do not overlap. -/
theorem pack_toNat (h0 : op < 256) (h1 : a < 16) (h2 : b < 16) (h3 : c < 16) (h4 : low < 4096) :
    (pack op a b c low).toNat = op * 2 ^ 24 + a * 2 ^ 20 + b * 2 ^ 16 + c * 2 ^ 12 + low := by
  simp only [pack, BitVec.toNat_ofNat]
  omega

theorem pack_op (h0 : op < 256) (h1 : a < 16) (h2 : b < 16) (h3 : c < 16) (h4 : low < 4096) :
    bits (pack op a b c low) 31 24 = op := by
  simp only [bits, pack_toNat h0 h1 h2 h3 h4]
  omega

theorem pack_fieldA (h0 : op < 256) (h1 : a < 16) (h2 : b < 16) (h3 : c < 16) (h4 : low < 4096) :
    fieldA (pack op a b c low) = ⟨a, h1⟩ := by
  apply Fin.ext
  simp only [fieldA, regField, pack_toNat h0 h1 h2 h3 h4]
  omega

theorem pack_fieldB (h0 : op < 256) (h1 : a < 16) (h2 : b < 16) (h3 : c < 16) (h4 : low < 4096) :
    fieldB (pack op a b c low) = ⟨b, h2⟩ := by
  apply Fin.ext
  simp only [fieldB, regField, pack_toNat h0 h1 h2 h3 h4]
  omega

theorem pack_fieldC (h0 : op < 256) (h1 : a < 16) (h2 : b < 16) (h3 : c < 16) (h4 : low < 4096) :
    fieldC (pack op a b c low) = ⟨c, h3⟩ := by
  apply Fin.ext
  simp only [fieldC, regField, pack_toNat h0 h1 h2 h3 h4]
  omega

theorem pack_fieldD (h0 : op < 256) (h1 : a < 16) (h2 : b < 16) (h3 : c < 16) (h4 : low < 4096) :
    fieldD (pack op a b c low) = ⟨low / 2 ^ 8 % 16, by omega⟩ := by
  apply Fin.ext
  simp only [fieldD, regField, pack_toNat h0 h1 h2 h3 h4]
  omega

theorem pack_fieldE (h0 : op < 256) (h1 : a < 16) (h2 : b < 16) (h3 : c < 16) (h4 : low < 4096) :
    fieldE (pack op a b c low) = ⟨low / 2 ^ 4 % 16, by omega⟩ := by
  apply Fin.ext
  simp only [fieldE, regField, pack_toNat h0 h1 h2 h3 h4]
  omega

theorem pack_fieldSlot (h0 : op < 256) (h1 : a < 16) (h2 : b < 16) (h3 : c < 16) (h4 : low < 4096) :
    fieldSlot (pack op a b c low) = ⟨low % 32, by omega⟩ := by
  apply Fin.ext
  simp only [fieldSlot, pack_toNat h0 h1 h2 h3 h4]
  omega

theorem pack_fieldImm12 (h0 : op < 256) (h1 : a < 16) (h2 : b < 16) (h3 : c < 16) (h4 : low < 4096) :
    fieldImm12 (pack op a b c low) = ⟨low, h4⟩ := by
  apply Fin.ext
  simp only [fieldImm12, pack_toNat h0 h1 h2 h3 h4]
  omega

/-- The must-be-zero bits of format R1 are zero in a word packed without them. -/
theorem pack_formatR1 (h0 : op < 256) (h1 : a < 16) (h2 : b < 16) (h3 : c < 16) (h4 : low < 4096)
    (hb : b = 0) (hc : c = 0) (hl : low = 0) (rest : Except Illegal Instr) : formatR1 (pack op a b c low) rest = rest := by
  simp only [formatR1, requireZero, bits, pack_toNat h0 h1 h2 h3 h4]
  exact if_pos (by omega)

/-- The must-be-zero bits of format R2 are zero in a word packed without them. -/
theorem pack_formatR2 (h0 : op < 256) (h1 : a < 16) (h2 : b < 16) (h3 : c < 16) (h4 : low < 4096)
    (hc : c = 0) (hl : low = 0) (rest : Except Illegal Instr) : formatR2 (pack op a b c low) rest = rest := by
  simp only [formatR2, requireZero, bits, pack_toNat h0 h1 h2 h3 h4]
  exact if_pos (by omega)

/-- The must-be-zero bits of format R3 are zero in a word packed without them. -/
theorem pack_formatR3 (h0 : op < 256) (h1 : a < 16) (h2 : b < 16) (h3 : c < 16) (h4 : low < 4096)
    (hl : low = 0) (rest : Except Illegal Instr) : formatR3 (pack op a b c low) rest = rest := by
  simp only [formatR3, requireZero, bits, pack_toNat h0 h1 h2 h3 h4]
  exact if_pos (by omega)

/-- The must-be-zero bits of format R4 are zero in a word packed without them. -/
theorem pack_formatR4 (h0 : op < 256) (h1 : a < 16) (h2 : b < 16) (h3 : c < 16) (h4 : low < 4096)
    (hl : low % 256 = 0) (rest : Except Illegal Instr) : formatR4 (pack op a b c low) rest = rest := by
  simp only [formatR4, requireZero, bits, pack_toNat h0 h1 h2 h3 h4]
  exact if_pos (by omega)

/-- The must-be-zero bits of format R5 are zero in a word packed without them. -/
theorem pack_formatR5 (h0 : op < 256) (h1 : a < 16) (h2 : b < 16) (h3 : c < 16) (h4 : low < 4096)
    (hl : low % 16 = 0) (rest : Except Illegal Instr) : formatR5 (pack op a b c low) rest = rest := by
  simp only [formatR5, requireZero, bits, pack_toNat h0 h1 h2 h3 h4]
  exact if_pos (by omega)

/-- The must-be-zero bits of format M are zero in a word packed without them. -/
theorem pack_formatM (h0 : op < 256) (h1 : a < 16) (h2 : b < 16) (h3 : c < 16) (h4 : low < 4096)
    (hb : b = 0) (hc : c = 0) (hl : low < 32) (rest : Except Illegal Instr) : formatM (pack op a b c low) rest = rest := by
  simp only [formatM, requireZero, bits, pack_toNat h0 h1 h2 h3 h4]
  exact if_pos (by omega)

/-- The must-be-zero bits of format I are zero in a word packed without them. -/
theorem pack_formatI (h0 : op < 256) (h1 : a < 16) (h2 : b < 16) (h3 : c < 16) (h4 : low < 4096)
    (hb : b = 0) (hc : c = 0) (rest : Except Illegal Instr) : formatI (pack op a b c low) rest = rest := by
  simp only [formatI, requireZero, bits, pack_toNat h0 h1 h2 h3 h4]
  exact if_pos (by omega)

end

/-- A P register field below 8 names that P register. -/
theorem withPReg_of_lt {n : Nat} {hn : n < 16} (rest : PReg → Except Illegal Instr) (h : n < 8) :
    withPReg ⟨n, hn⟩ rest = rest ⟨n, h⟩ := by
  simp [withPReg, h]

end Sys2Proof

namespace Sys2Proof.Laws.Encoding

/-- Decoding the encoding of a well-formed command gives the command. -/
def Statement (i : Instr) : Prop := i.wellFormed = true → decode (encode i) = .ok i

theorem nop : Statement .nop := by
  intro _
  decide

theorem clrerr : Statement .clrerr := by
  intro _
  decide

theorem lde (rd : EReg) (slot : Slot) : Statement (.lde rd slot) := by
  intro _
  have hs : (⟨slot.val % 32, by omega⟩ : Slot) = slot := Fin.ext (by dsimp only; omega)
  simp (disch := omega) only [encode, decode, pack_op, pack_formatM, pack_fieldA, pack_fieldSlot, hs]

theorem ste (rs : EReg) (slot : Slot) : Statement (.ste rs slot) := by
  intro _
  have hs : (⟨slot.val % 32, by omega⟩ : Slot) = slot := Fin.ext (by dsimp only; omega)
  simp (disch := omega) only [encode, decode, pack_op, pack_formatM, pack_fieldA, pack_fieldSlot, hs]

theorem fli (rd : EReg) (imm : Imm12) : Statement (.fli rd imm) := by
  intro _
  simp (disch := omega) only [encode, decode, pack_op, pack_formatI, pack_fieldA, pack_fieldImm12]

theorem fmov (rd : EReg) (rs : EReg) : Statement (.fmov rd rs) := by
  intro _
  simp (disch := omega) only [encode, decode, pack_op, pack_formatR2, pack_fieldA, pack_fieldB]

theorem fadd (rd : EReg) (rs1 : EReg) (rs2 : EReg) : Statement (.fadd rd rs1 rs2) := by
  intro _
  simp (disch := omega) only [encode, decode, pack_op, pack_formatR3, pack_fieldA, pack_fieldB, pack_fieldC]

theorem fsub (rd : EReg) (rs1 : EReg) (rs2 : EReg) : Statement (.fsub rd rs1 rs2) := by
  intro _
  simp (disch := omega) only [encode, decode, pack_op, pack_formatR3, pack_fieldA, pack_fieldB, pack_fieldC]

theorem fneg (rd : EReg) (rs : EReg) : Statement (.fneg rd rs) := by
  intro _
  simp (disch := omega) only [encode, decode, pack_op, pack_formatR2, pack_fieldA, pack_fieldB]

theorem fmul (rd : EReg) (rs1 : EReg) (rs2 : EReg) : Statement (.fmul rd rs1 rs2) := by
  intro _
  simp (disch := omega) only [encode, decode, pack_op, pack_formatR3, pack_fieldA, pack_fieldB, pack_fieldC]

theorem fsqr (rd : EReg) (rs : EReg) : Statement (.fsqr rd rs) := by
  intro _
  simp (disch := omega) only [encode, decode, pack_op, pack_formatR2, pack_fieldA, pack_fieldB]

theorem finv (rd : EReg) (rs : EReg) : Statement (.finv rd rs) := by
  intro _
  simp (disch := omega) only [encode, decode, pack_op, pack_formatR2, pack_fieldA, pack_fieldB]

theorem fpow (rd : EReg) (rs1 : EReg) (rs2 : EReg) : Statement (.fpow rd rs1 rs2) := by
  intro _
  simp (disch := omega) only [encode, decode, pack_op, pack_formatR3, pack_fieldA, pack_fieldB, pack_fieldC]

theorem feq (rs1 : EReg) (rs2 : EReg) : Statement (.feq rs1 rs2) := by
  intro _
  simp (disch := omega) only [encode, decode, pack_op, pack_formatR2, pack_fieldA, pack_fieldB]

theorem pset (pd : PReg) (rsx : EReg) (rsy : EReg) : Statement (.pset pd rsx rsy) := by
  intro _
  simp (disch := omega) only [encode, decode, pack_op, pack_formatR3, pack_fieldA, pack_fieldB, pack_fieldC,
    withPReg_of_lt]

theorem pinf (pd : PReg) : Statement (.pinf pd) := by
  intro _
  simp (disch := omega) only [encode, decode, pack_op, pack_formatR1, pack_fieldA, withPReg_of_lt]

theorem pgen (pd : PReg) : Statement (.pgen pd) := by
  intro _
  simp (disch := omega) only [encode, decode, pack_op, pack_formatR1, pack_fieldA, withPReg_of_lt]

theorem pmov (pd : PReg) (ps : PReg) : Statement (.pmov pd ps) := by
  intro _
  simp (disch := omega) only [encode, decode, pack_op, pack_formatR2, pack_fieldA, pack_fieldB, withPReg_of_lt]

theorem pgetx (rd : EReg) (ps : PReg) : Statement (.pgetx rd ps) := by
  intro _
  simp (disch := omega) only [encode, decode, pack_op, pack_formatR2, pack_fieldA, pack_fieldB, withPReg_of_lt]

theorem pgety (rd : EReg) (ps : PReg) : Statement (.pgety rd ps) := by
  intro _
  simp (disch := omega) only [encode, decode, pack_op, pack_formatR2, pack_fieldA, pack_fieldB, withPReg_of_lt]

theorem pisinf (ps : PReg) : Statement (.pisinf ps) := by
  intro _
  simp (disch := omega) only [encode, decode, pack_op, pack_formatR1, pack_fieldA, withPReg_of_lt]

theorem ponc (rsx : EReg) (rsy : EReg) : Statement (.ponc rsx rsy) := by
  intro _
  simp (disch := omega) only [encode, decode, pack_op, pack_formatR2, pack_fieldA, pack_fieldB]

theorem peq (ps1 : PReg) (ps2 : PReg) : Statement (.peq ps1 ps2) := by
  intro _
  simp (disch := omega) only [encode, decode, pack_op, pack_formatR2, pack_fieldA, pack_fieldB, withPReg_of_lt]

theorem pneg (pd : PReg) (ps : PReg) : Statement (.pneg pd ps) := by
  intro _
  simp (disch := omega) only [encode, decode, pack_op, pack_formatR2, pack_fieldA, pack_fieldB, withPReg_of_lt]

theorem padd (pd : PReg) (ps1 : PReg) (ps2 : PReg) : Statement (.padd pd ps1 ps2) := by
  intro _
  simp (disch := omega) only [encode, decode, pack_op, pack_formatR3, pack_fieldA, pack_fieldB, pack_fieldC,
    withPReg_of_lt]

theorem pdbl (pd : PReg) (ps : PReg) : Statement (.pdbl pd ps) := by
  intro _
  simp (disch := omega) only [encode, decode, pack_op, pack_formatR2, pack_fieldA, pack_fieldB, withPReg_of_lt]

theorem smul (pd : PReg) (rk : EReg) (ps : PReg) : Statement (.smul pd rk ps) := by
  intro _
  simp (disch := omega) only [encode, decode, pack_op, pack_formatR3, pack_fieldA, pack_fieldB, pack_fieldC,
    withPReg_of_lt]

theorem poseidon (rb : EReg) : Statement (.poseidon rb) := by
  intro hw
  have hb : rb.val ≤ 13 := by simpa [Instr.wellFormed] using hw
  simp (disch := omega) only [encode, decode, pack_op, pack_formatR1, pack_fieldA, if_pos]

theorem pedersen (rd : EReg) (rs1 : EReg) (rs2 : EReg) : Statement (.pedersen rd rs1 rs2) := by
  intro _
  simp (disch := omega) only [encode, decode, pack_op, pack_formatR3, pack_fieldA, pack_fieldB, pack_fieldC]

theorem verify (rm : EReg) (rr : EReg) (rs : EReg) (pk : PReg) : Statement (.verify rm rr rs pk) := by
  intro _
  have hd : (⟨pk.val * 2 ^ 8 / 2 ^ 8 % 16, by omega⟩ : EReg) = ⟨pk.val, by omega⟩ := Fin.ext (by dsimp only; omega)
  simp (disch := omega) only [encode, decode, pack_op, pack_formatR4, pack_fieldA, pack_fieldB, pack_fieldC,
    pack_fieldD, withPReg_of_lt, hd]

theorem verifyxy (rm : EReg) (rr : EReg) (rs : EReg) (rx : EReg) (ry : EReg) : Statement (.verifyxy rm rr rs rx ry) := by
  intro _
  have hd : (⟨(rx.val * 2 ^ 8 + ry.val * 2 ^ 4) / 2 ^ 8 % 16, by omega⟩ : EReg) = rx := Fin.ext (by dsimp only; omega)
  have he : (⟨(rx.val * 2 ^ 8 + ry.val * 2 ^ 4) / 2 ^ 4 % 16, by omega⟩ : EReg) = ry := Fin.ext (by dsimp only; omega)
  simp (disch := omega) only [encode, decode, pack_op, pack_formatR5, pack_fieldA, pack_fieldB, pack_fieldC,
    pack_fieldD, pack_fieldE, hd, he]

theorem schk (rs : EReg) : Statement (.schk rs) := by
  intro _
  simp (disch := omega) only [encode, decode, pack_op, pack_formatR1, pack_fieldA]

end Sys2Proof.Laws.Encoding
end

