-- ==== Sys2Proof/Laws/Exec.lean ====
section
/-!
SUPPORT. What a command does, said once: `exec` is the shared end of a command over one effect per command (spec/10_state.md
R22), and what a transaction and a step do.
-/

namespace Sys2Proof.Machine

/-- What a command computes from the state before it: its writes, or the error it raises. -/
def effect : Instr → State → Except ErrorKind State
  | .nop, s => .ok s
  | .clrerr, s => .ok s.acknowledge
  | .lde rd slot, s => (loadSlot s.buf slot).map fun v => s.setE rd v
  | .ste rs slot, s => .ok (s.setBuf (storeSlot s.buf slot (s.getE rs)))
  | .fli rd imm, s => .ok (s.setE rd (immValue imm))
  | .fmov rd rs, s => .ok (s.setE rd (s.getE rs))
  | .fadd rd rs1 rs2, s => .ok (s.setE rd (fadd (s.getE rs1) (s.getE rs2)))
  | .fsub rd rs1 rs2, s => .ok (s.setE rd (fsub (s.getE rs1) (s.getE rs2)))
  | .fneg rd rs, s => .ok (s.setE rd (fneg (s.getE rs)))
  | .fmul rd rs1 rs2, s => .ok (s.setE rd (fmul (s.getE rs1) (s.getE rs2)))
  | .fsqr rd rs, s => .ok (s.setE rd (fsqr (s.getE rs)))
  | .finv rd rs, s => if (s.getE rs).val = 0 then .error .divisionByZero else .ok (s.setE rd (finv (s.getE rs)))
  | .fpow rd rs1 rs2, s => .ok (s.setE rd (fpow (s.getE rs1) (s.getE rs2).val))
  | .feq rs1 rs2, s => .ok (s.setFlag (flagFeq (s.getE rs1) (s.getE rs2)))
  | .pset pd rsx rsy, s => (checkedPoint s.params (s.getE rsx) (s.getE rsy)).map fun q => s.setPt pd q
  | .pinf pd, s => .ok (s.setPt pd .identity)
  | .pgen pd, s => .ok (s.setPt pd s.params.generator)
  | .pmov pd ps, s => .ok (s.setPt pd (s.getPt ps))
  | .pgetx rd ps, s => (pointX (s.getPt ps)).map fun x => s.setE rd x
  | .pgety rd ps, s => (pointY (s.getPt ps)).map fun y => s.setE rd y
  | .pisinf ps, s => .ok (s.setFlag (flagIsIdentity (s.getPt ps)))
  | .ponc rsx rsy, s => .ok (s.setFlag (flagOnCurve s.params (s.getE rsx) (s.getE rsy)))
  | .peq ps1 ps2, s => .ok (s.setFlag (flagPeq (s.getPt ps1) (s.getPt ps2)))
  | .pneg pd ps, s => .ok (s.setPt pd (pneg (s.getPt ps)))
  | .padd pd ps1 ps2, s => .ok (s.setPt pd (padd s.params (s.getPt ps1) (s.getPt ps2)))
  | .pdbl pd ps, s => .ok (s.setPt pd (pdbl s.params (s.getPt ps)))
  | .smul pd rk ps, s =>
    (scalarOperand s.params (s.getE rk)).map fun k => s.setPt pd (smul s.params k (s.getPt ps))
  | .poseidon rb, s =>
    if h : rb.val ≤ 13 then .ok (setState3 s rb h (hades s.params (getState3 s rb h))) else .error .illegalCommand
  | .pedersen rd rs1 rs2, s =>
    (pointX (pedersenPoint s.params (s.getE rs1) (s.getE rs2))).map fun x => s.setE rd x
  | .verify rm rr rs pk, s =>
    .ok (s.setFlag (flagVerify s.params (s.getE rm) (s.getE rr) (s.getE rs) (s.getPt pk)))
  | .verifyxy rm rr rs rx ry, s =>
    .ok (s.setFlag (flagVerifyXY s.params (s.getE rm) (s.getE rr) (s.getE rs) (s.getE rx) (s.getE ry)))
  | .schk rs, s => (checkComponent s.params (s.getE rs)).map fun _ => s

/-- Every meaning is the shared end of a command over its effect (10_state R22). -/
theorem exec_eq_settle (i : Instr) (s : State) : exec i s = settle i s (effect i s) := by
  cases i <;> rfl

theorem map_eq_ok {α β : Type} {x : Except ErrorKind α} {f : α → β} {t : β} :
    x.map f = .ok t ↔ ∃ v, x = .ok v ∧ f v = t := by
  cases x <;> simp [Except.map]

theorem map_eq_error {α β : Type} {x : Except ErrorKind α} {f : α → β} {k : ErrorKind} :
    x.map f = .error k ↔ x = .error k := by
  cases x <;> simp [Except.map]

theorem decode32_error {bytes : List Byte} {k : ErrorKind} (h : decode32 bytes = .error k) :
    k = .invalidEncoding ∧ P ≤ bigEndian bytes := by
  unfold decode32 at h
  split at h
  · cases h
  · exact ⟨by simpa using h.symm, by omega⟩

theorem decode32_ok {bytes : List Byte} {v : Felt} (h : decode32 bytes = .ok v) : v.val = bigEndian bytes := by
  unfold decode32 at h
  split at h
  · rw [← Except.ok.inj h]
  · cases h

theorem checkedPoint_error {p : Params} {x y : Felt} {k : ErrorKind} (h : checkedPoint p x y = .error k) :
    k = .pointNotOnCurve ∧ onCurve p x y = false := by
  unfold checkedPoint at h
  split at h
  · cases h
  · exact ⟨by simpa using h.symm, Bool.eq_false_iff.2 ‹_›⟩

theorem checkedPoint_ok {p : Params} {x y : Felt} {q : Point} (h : checkedPoint p x y = .ok q) :
    q = .affine x y ∧ onCurve p x y = true := by
  unfold checkedPoint at h
  split at h
  · exact ⟨by simpa using h.symm, ‹_›⟩
  · cases h

theorem pointX_error {q : Point} {k : ErrorKind} (h : pointX q = .error k) :
    k = .pointIsIdentity ∧ q = .identity := by
  cases q with
  | identity => exact ⟨by simpa [pointX] using h.symm, rfl⟩
  | affine x y => cases h

theorem pointY_error {q : Point} {k : ErrorKind} (h : pointY q = .error k) :
    k = .pointIsIdentity ∧ q = .identity := by
  cases q with
  | identity => exact ⟨by simpa [pointY] using h.symm, rfl⟩
  | affine x y => cases h

theorem scalarOperand_error {p : Params} {v : Felt} {k : ErrorKind} (h : scalarOperand p v = .error k) :
    k = .scalarOutOfRange ∧ p.n ≤ v.val := by
  unfold scalarOperand at h
  split at h
  · cases h
  · exact ⟨by simpa using h.symm, by omega⟩

theorem scalarOperand_ok {p : Params} {v : Felt} {k : Nat} (h : scalarOperand p v = .ok k) :
    k = v.val ∧ v.val < p.n := by
  unfold scalarOperand at h
  split at h
  · exact ⟨by simpa using h.symm, ‹_›⟩
  · cases h

theorem checkComponent_error {p : Params} {v : Felt} {k : ErrorKind} (h : checkComponent p v = .error k) :
    k = .scalarOutOfRange ∧ componentInRange p v = false := by
  unfold checkComponent at h
  split at h
  · cases h
  · exact ⟨by simpa using h.symm, Bool.eq_false_iff.2 ‹_›⟩

/-- The three registers of a permutation state, after they are written (43_poseidon R195). -/
theorem getE_setState3 (s : State) (rb : EReg) (h : rb.val ≤ 13) (t : State3) (j : EReg) :
    (setState3 s rb h t).getE j =
      if j.val = rb.val then t.s0 else if j.val = rb.val + 1 then t.s1
      else if j.val = rb.val + 2 then t.s2 else s.getE j := by
  simp only [setState3, State.getE_setE, Fin.ext_iff]
  split_ifs <;> first | rfl | omega

/-- An effect that is no error changes E, P, `FLAG`, the buffer and the error latch at most. -/
theorem effect_ok_keeps {i : Instr} {s t : State} (h : effect i s = .ok t) :
    t.params = s.params ∧ t.pending = s.pending ∧ t.answers = s.answers := by
  cases i <;> simp only [effect, map_eq_ok] at h
  case finv =>
    split at h
    · simp at h
    · rw [← Except.ok.inj h]
      simp
  case poseidon =>
    split at h
    · rw [← Except.ok.inj h]
      simp [setState3]
    · simp at h
  case lde | pset | pgetx | pgety | smul | pedersen | schk =>
    obtain ⟨v, -, rfl⟩ := h
    simp
  all_goals
    rw [← Except.ok.inj h]
    simp

@[simp] theorem bytes32_length (v : Nat) : (bytes32 v).length = 32 := by simp [bytes32]

/-- An effect that is no error keeps the error latch, `CLRERR` apart (60_exceptions R245). -/
theorem effect_ok_latch {i : Instr} {s t : State} (h : effect i s = .ok t) :
    i = .clrerr ∨ (t.err = s.err ∧ t.errcmd = s.errcmd) := by
  cases i <;> simp only [effect, map_eq_ok] at h
  case clrerr => exact .inl rfl
  all_goals right
  case finv =>
    split at h
    · simp at h
    · rw [← Except.ok.inj h]
      simp
  case poseidon =>
    split at h
    · rw [← Except.ok.inj h]
      simp [setState3]
    · simp at h
  case lde | pset | pgetx | pgety | smul | pedersen | schk =>
    obtain ⟨v, -, rfl⟩ := h
    simp
  all_goals
    rw [← Except.ok.inj h]
    simp

/-- An effect that is no error keeps the canonical form of the buffer. -/
theorem effect_ok_wf {i : Instr} {s t : State} (hw : s.buf.wf = true) (h : effect i s = .ok t) : t.buf.wf = true := by
  cases i <;> simp only [effect, map_eq_ok] at h
  case ste rs slot =>
    rw [← Except.ok.inj h]
    have hs := slot.isLt
    simp only [State.setBuf_buf, storeSlot]
    exact Memory.wf_writeBytes _ (by rw [encode32, bytes32_length, slotAddr]; omega) hw
  case finv =>
    split at h
    · simp at h
    · rw [← Except.ok.inj h]
      simpa
  case poseidon =>
    split at h
    · rw [← Except.ok.inj h]
      simpa [setState3]
    · simp at h
  case lde | pset | pgetx | pgety | smul | pedersen | schk =>
    obtain ⟨v, -, rfl⟩ := h
    simpa
  all_goals
    rw [← Except.ok.inj h]
    simpa

/-- An effect that is no error writes the destinations of its command at most. -/
theorem effect_ok_frame {i : Instr} {s t : State} (hw : s.buf.wf = true) (h : effect i s = .ok t) :
    (∀ j, writesE i j = false → t.getE j = s.getE j) ∧
    (∀ j, pointDest i ≠ some j → t.getPt j = s.getPt j) ∧
    (isPredicate i = false → t.flag = s.flag) ∧
    (∀ a, (∀ slot, slotDest i = some slot → ¬ (slotAddr slot ≤ a ∧ a < slotAddr slot + 32)) →
      t.buf.read a = s.buf.read a) := by
  cases i <;> simp only [effect, map_eq_ok] at h
  case ste rs slot =>
    rw [← Except.ok.inj h]
    have hs := slot.isLt
    refine ⟨fun _ _ => by simp, fun _ _ => by simp, fun _ => by simp, fun a ha => ?_⟩
    have hn := ha slot rfl
    simp only [State.setBuf_buf, storeSlot]
    rw [Memory.read_writeBytes _ _ (by rw [encode32, bytes32_length, slotAddr]; omega) hw, encode32, bytes32_length,
      if_neg hn]
  case finv =>
    split at h
    · simp at h
    · rw [← Except.ok.inj h]
      simp +contextual [writesE]
  case poseidon rb =>
    split at h
    · rw [← Except.ok.inj h]
      refine ⟨fun j hj => ?_, fun _ _ => by simp [setState3], fun _ => by simp [setState3],
        fun _ _ => by simp [setState3]⟩
      simp only [writesE, Bool.and_eq_false_iff, decide_eq_false_iff_not] at hj
      rw [getE_setState3, if_neg (by omega), if_neg (by omega), if_neg (by omega)]
    · simp at h
  case lde | pset | pgetx | pgety | smul | pedersen | schk =>
    obtain ⟨v, -, rfl⟩ := h
    simp +contextual [writesE, pointDest]
    try exact fun j hj h => absurd h.symm hj
  all_goals
    rw [← Except.ok.inj h]
    simp +contextual [writesE, pointDest, isPredicate]
    try exact fun j hj h => absurd h.symm hj

/-- Everything an executed command can do: it completes with its writes, or it enters the error it raised. -/
theorem exec_cases {i : Instr} {s t : State} (h : exec i s = .next t) :
    (∃ u, effect i s = .ok u ∧ t = u.complete) ∨ (∃ k, effect i s = .error k ∧ t = s.raise k (encode i)) :=
  settle_cases (exec_eq_settle i s ▸ h)

/-- Which errors an effect can be: those of the command, or that the command is none. -/
theorem effect_error {i : Instr} {s : State} {k : ErrorKind} (h : effect i s = .error k) :
    mayRaise i k = true ∨ (i.wellFormed = false ∧ k = .illegalCommand) := by
  cases i <;> simp only [effect, map_eq_error, reduceCtorEq] at h
  case lde => exact .inl (decide_eq_true (decode32_error h).1)
  case finv =>
    split at h
    · exact .inl (decide_eq_true (Except.error.inj h).symm)
    · cases h
  case pset => exact .inl (decide_eq_true (checkedPoint_error h).1)
  case pgetx => exact .inl (decide_eq_true (pointX_error h).1)
  case pgety => exact .inl (decide_eq_true (pointY_error h).1)
  case smul => exact .inl (decide_eq_true (scalarOperand_error h).1)
  case poseidon rb =>
    split at h
    · cases h
    · exact .inr ⟨decide_eq_false ‹_›, (Except.error.inj h).symm⟩
  case pedersen => exact .inl (decide_eq_true (pointX_error h).1)
  case schk => exact .inl (decide_eq_true (checkComponent_error h).1)

/-- Issuing a word that decodes runs the command. -/
theorem issue_of_decode {w : Word} {i : Instr} (s : State) (h : decode w = .ok i) : issue w s = exec i s := by
  simp [issue, h]

/-- Issuing a word that does not decode raises `IllegalCommand` (60_exceptions R243). -/
theorem issue_of_illegal {w : Word} {r : Illegal} (s : State) (h : decode w = .error r) :
    issue w s = .next (s.raise .illegalCommand w) := by
  simp [issue, h]

/-- With no transaction pending the block holds its state (60_exceptions R257). -/
theorem step_idle {s : State} (h : s.pending = []) : step s = .next s := by
  simp [step, advance, h]

/-- A step makes the first pending transaction. -/
theorem step_transact {s : State} {x : Transaction} {rest : List Transaction} (h : s.pending = x :: rest) :
    step s = transact x { s with pending := rest } := by
  simp [step, advance, h]

theorem tableWord_toNat (w : Word) : tableWord 32 w.toNat = some w := by
  have h := w.isLt
  rw [tableWord, Nat.mod_eq_of_lt h, if_pos h, BitVec.ofNat_toNat, BitVec.setWidth_eq]

/-- The presented word is issued by the very next step. -/
theorem step_withFetchWord (s : State) (w : Word) : step (s.withFetchWord 32 w.toNat) = issue w s := by
  simp only [State.withFetchWord, tableWord_toNat]
  exact step_transact (s := present s w) (x := .issue w) (rest := s.pending) rfl

/-- A completed write of an E register writes it and nothing else. -/
theorem setsOnlyE_complete (s : State) (rd : EReg) (v : Felt) : SetsOnlyE s (s.setE rd v).complete rd v where
  value := by simp
  others j hj := by simp [hj]
  points _ := by simp
  flag := by simp
  buffer _ := by simp
  status := by constructor <;> simp

/-- A completed write of a P register writes it and nothing else. -/
theorem setsOnlyPt_complete (s : State) (pd : PReg) (q : Point) : SetsOnlyPt s (s.setPt pd q).complete pd q where
  value := by simp
  others j hj := by simp [hj]
  elements _ := by simp
  flag := by simp
  buffer _ := by simp
  status := by constructor <;> simp

/-- A completed write of `FLAG` writes it and nothing else. -/
theorem setsOnlyFlag_complete (s : State) (b : Bool) : SetsOnlyFlag s (s.setFlag b).complete b where
  value := by simp
  elements _ := by simp
  points _ := by simp
  buffer _ := by simp
  status := by constructor <;> simp

/-- A command without writes changes nothing but `LAST`. -/
theorem onlyCompletes_complete (s : State) : OnlyCompletes s s.complete where
  elements _ := by simp
  points _ := by simp
  flag := by simp
  buffer _ := by simp
  status := by constructor <;> simp

/-- Error entry writes `LAST` and an empty latch, and nothing else (60_exceptions R244). -/
theorem onlyRaises_raise (s : State) (k : ErrorKind) (w : Word) : OnlyRaises s (s.raise k w) k w where
  elements _ := by simp
  points _ := by simp
  flag := by simp
  buffer _ := by simp
  last := by simp
  latches h := by simp [State.raise_err, State.raise_errcmd, h]
  keepsFirst h := by
    rw [State.raise_err, State.raise_errcmd]
    cases he : s.err with
    | none => exact absurd he h
    | some k => exact ⟨rfl, rfl⟩
  params := by simp
  pending := by simp
  answers := by simp

/-- A command whose effect is no error completes with it. -/
theorem exec_of_effect_ok {i : Instr} {s u : State} (h : effect i s = .ok u) : exec i s = .next u.complete := by
  rw [exec_eq_settle, h, settle_ok]

/-- A command whose effect is an error enters it. -/
theorem exec_of_effect_error {i : Instr} {s : State} {k : ErrorKind} (h : effect i s = .error k) :
    exec i s = .next (s.raise k (encode i)) := by
  rw [exec_eq_settle, h, settle_error]

/-- The word of a command, from its encoding and the round trip of its constructor. -/
theorem hasWord_of_encode {op a b c low : Nat} {i : Instr} (h : Laws.Encoding.Statement i) (hw : i.wellFormed = true)
    (he : encode i = pack op a b c low) : HasWord op a b c low i := by
  rw [HasWord, ← h hw, he, pack]

end Sys2Proof.Machine
end

