-- ==== Sys2Proof/Laws/Group.lean ====
section
/-!
SUPPORT. On a non-singular curve the points form a group and the scalar multiplier computes multiples in it
(spec/42_curve.md R162, R163; spec/00_scope.md R8, W5).
-/

namespace Sys2Proof.Machine

/-- W5 is the non-vanishing of the discriminant (00_scope R8). -/
theorem discriminant_ne_zero [Fact (Nat.Prime P)] {p : Params}
    (h : (4 * p.alpha.val ^ 3 + 27 * p.beta.val ^ 2) % P ≠ 0) : (weierstrass p).Δ ≠ 0 := by
  intro hd
  have h16 : (2 : ZMod P) ^ 4 * (4 * toZ p.alpha ^ 3 + 27 * toZ p.beta ^ 2) = 0 := by
    simp only [WeierstrassCurve.Δ, WeierstrassCurve.b₂, WeierstrassCurve.b₄, WeierstrassCurve.b₆, WeierstrassCurve.b₈,
      weierstrass] at hd
    linear_combination -hd
  have h0 := (mul_eq_zero.1 h16).resolve_left (pow_ne_zero 4 two_ne_zero_P)
  have hc : ((4 * p.alpha.val ^ 3 + 27 * p.beta.val ^ 2 : Nat) : ZMod P) = 0 := by
    push_cast
    exact h0
  rw [ZMod.natCast_eq_zero_iff] at hc
  exact h (Nat.mod_eq_zero_of_dvd hc)

section
variable [Fact (Nat.Prime P)] {p : Params}

/-- A valid point as an element of the curve's group. -/
noncomputable def toGroup (hd : (weierstrass p).Δ ≠ 0) : (a : Point) → pointValid p a = true → (weierstrass p).Point
  | .identity, _ => 0
  | .affine x y, h =>
    .some (toZ x) (toZ y)
      ((WeierstrassCurve.Affine.equation_iff_nonsingular_of_Δ_ne_zero hd).1 ((onCurve_iff p x y).1 h))

/-- Equal points are equal elements, whatever says that they are valid. -/
theorem toGroup_congr (hd : (weierstrass p).Δ ≠ 0) {a b : Point} {ha : pointValid p a = true} (h : a = b) :
    toGroup hd a ha = toGroup hd b (h ▸ ha) := by
  subst h
  rfl

theorem toGroup_injective (hd : (weierstrass p).Δ ≠ 0) {a b : Point} {ha : pointValid p a = true}
    {hb : pointValid p b = true} (h : toGroup hd a ha = toGroup hd b hb) : a = b := by
  cases a <;> cases b <;> simp_all [toGroup, toZ_inj]

theorem toGroup_pneg (hd : (weierstrass p).Δ ≠ 0) {a : Point} (ha : pointValid p a = true) :
    toGroup hd (pneg a) (pointValid_pneg ha) = -toGroup hd a ha := by
  cases a with
  | identity => simp [toGroup, pneg]
  | affine x y =>
    simp only [toGroup, pneg, WeierstrassCurve.Affine.Point.neg_some, negY_weierstrass, toZ_fneg]

theorem toGroup_pdbl (hd : (weierstrass p).Δ ≠ 0) {a : Point} (ha : pointValid p a = true) :
    toGroup hd (pdbl p a) (pointValid_pdbl ha) = toGroup hd a ha + toGroup hd a ha := by
  cases a with
  | identity => simp [toGroup, pdbl]
  | affine x y =>
    by_cases hy : y.val = 0
    · have hn : toZ y = (weierstrass p).negY (toZ x) (toZ y) := by
        rw [negY_weierstrass]
        exact toZ_eq_neg_self.2 hy
      have hp : pdbl p (.affine x y) = .identity := by
        simp only [pdbl, hy, if_true]
      rw [toGroup_congr hd hp]
      exact (WeierstrassCurve.Affine.Point.add_self_of_Y_eq hn).symm
    · have hn : toZ y ≠ (weierstrass p).negY (toZ x) (toZ y) := by
        rw [negY_weierstrass]
        exact fun h => hy (toZ_eq_neg_self.1 h)
      obtain ⟨x3, y3, h3, hx3, hy3⟩ := lineThird_eq p (tangentSlope p x y) x y x
      have hp : pdbl p (.affine x y) = .affine x3 y3 := by
        simp only [pdbl, if_neg hy, h3]
      have hv := pointValid_pdbl ha
      simp only [hp] at hv ⊢
      simp only [toGroup]
      rw [WeierstrassCurve.Affine.Point.add_self_of_Y_ne hn]
      simp only [slope_tangent p hy, hx3, hy3]

/-- The point adder is the group's addition (42_curve R160, R162). -/
theorem toGroup_padd (hd : (weierstrass p).Δ ≠ 0) {a b : Point} (ha : pointValid p a = true)
    (hb : pointValid p b = true) :
    toGroup hd (padd p a b) (pointValid_padd ha hb) = toGroup hd a ha + toGroup hd b hb := by
  cases a with
  | identity => simp [toGroup]
  | affine x1 y1 =>
    cases b with
    | identity =>
      rw [toGroup_congr hd (padd_identity_right p _)]
      simp [toGroup]
    | affine x2 y2 =>
      by_cases hx : x1 = x2
      · subst hx
        by_cases hy : y1 = y2 ∧ y1.val ≠ 0
        · obtain ⟨hy, hy0⟩ := hy
          subst hy
          have hp : padd p (.affine x1 y1) (.affine x1 y1) = pdbl p (.affine x1 y1) := by
            rw [pdbl_eq_padd_self]
          simp only [hp]
          exact toGroup_pdbl hd ha
        · have hp : padd p (.affine x1 y1) (.affine x1 y2) = .identity := by
            simp only [padd, if_true, if_neg hy]
          have h1 := (onCurve_iff p x1 y1).1 ha
          have h2 := (onCurve_iff p x1 y2).1 hb
          have hn : toZ y1 = (weierstrass p).negY (toZ x1) (toZ y2) := by
            rcases WeierstrassCurve.Affine.Y_eq_of_X_eq h1 h2 rfl with h | h
            · have hy1 := toZ_injective h
              subst hy1
              have hz : y1.val = 0 := by
                by_contra hne
                exact hy ⟨rfl, hne⟩
              rw [negY_weierstrass]
              exact toZ_eq_neg_self.2 hz
            · exact h
          rw [toGroup_congr hd hp]
          exact (WeierstrassCurve.Affine.Point.add_of_Y_eq rfl hn).symm
      · obtain ⟨x3, y3, h3, hx3, hy3⟩ := lineThird_eq p (chordSlope x1 y1 x2 y2) x1 y1 x2
        have hp : padd p (.affine x1 y1) (.affine x2 y2) = .affine x3 y3 := by
          simp only [padd, if_neg hx, h3]
        have hv := pointValid_padd ha hb
        simp only [hp] at hv ⊢
        simp only [toGroup]
        rw [WeierstrassCurve.Affine.Point.add_of_X_ne fun h => hx (toZ_injective h)]
        simp only [slope_chord p hx, hx3, hy3]

/-- The scalar multiplier computes multiples in the group (42_curve R163). -/
theorem toGroup_smul (hd : (weierstrass p).Δ ≠ 0) {a : Point} (k : Nat) (ha : pointValid p a = true) :
    toGroup hd (smul p k a) (pointValid_smul k ha) = k • toGroup hd a ha := by
  induction k using Nat.strongRecOn with
  | ind k ih =>
    by_cases hk : k = 0
    · subst hk
      rw [toGroup_congr hd (smul_zero p a), zero_nsmul]
      rfl
    · have hh := ih (k / 2) (by omega)
      have hv := pointValid_smul (p := p) (k / 2) ha
      rcases Nat.mod_two_eq_zero_or_one k with h2 | h2
      · have hs := smul_step p a hk
        rw [if_neg (by omega)] at hs
        simp only [hs]
        rw [toGroup_padd hd hv hv, hh, ← add_smul, show k / 2 + k / 2 = k by omega]
      · have hs := smul_step p a hk
        rw [if_pos h2] at hs
        simp only [hs]
        rw [toGroup_padd hd (pointValid_padd hv hv) ha, toGroup_padd hd hv hv, hh, ← add_smul, ← succ_nsmul,
          show k / 2 + k / 2 + 1 = k by omega]

end

end Sys2Proof.Machine
end

