-- ==== Sys2Proof/Tests/Slice0.lean ====
section
/-!
SUPPORT. The model's own tests: well-formedness, decoding of words written out from the spec's encodings
(spec/30_encoding.md R78, spec/95_test_vectors.md 2.1), one step of every command with the results of
spec/95_test_vectors.md, and for every statement a witness of its hypotheses.
-/

namespace Sys2Proof.Tests

open Sys2Proof.Machine

set_option Elab.async false

/-! ### Configurations and states (spec/95_test_vectors.md section 0) -/

def felt (n : Nat) : Felt := reduceP n

/-- `P - 1`. -/
def top : Felt := felt (P - 1)

/-- The matrix of Config-T. -/
def matrixT : Matrix3 := ⟨⟨3, 1, 1⟩, ⟨1, top, 1⟩, ⟨1, 1, felt (P - 2)⟩⟩

/-- Config-2, the curve `y^2 = x^3 - x`, with the Poseidon fields of Config-T. -/
def config2 : Params where
  alpha := top
  beta := 0
  gx := 0
  gy := 0
  n := 2
  posFull1 := [⟨1, 2, 3⟩]
  posPartial := [4]
  posFull2 := [⟨5, 6, 7⟩]
  posM := matrixT
  pedShift := ⟨0, 0⟩
  pedP1 := ⟨0, 0⟩
  pedP2 := ⟨1, 0⟩
  pedP3 := ⟨top, 0⟩
  pedP4 := ⟨1, 0⟩
  sigAlt := false

/-- Config-S, the curve and Pedersen fields of spec/93_implementation_defined.md G6, with the Poseidon fields of Config-T. -/
def configS : Params where
  alpha := 1
  beta := felt 0x06f21413efbe40de150e596d72f7a8c5609ad26c15c915c1f4cdfcb99cee9e89
  gx := felt 0x01ef15c18599971b7beced415a40f0c7deacfd9b0d1819e03d723d8bc943cfca
  gy := felt 0x005668060aa49730b7be4801df46ec62de53ecd11abe43a32873000c36e8dc1f
  n := 0x0800000000000010ffffffffffffffffb781126dcae7b2321e66a241adc64d2f
  posFull1 := [⟨1, 2, 3⟩]
  posPartial := [4]
  posFull2 := [⟨5, 6, 7⟩]
  posM := matrixT
  pedShift := ⟨felt 0x049ee3eba8c1600700ee1b87eb599f16716b0b1022947733551fde4050ca6804,
    felt 0x03ca0cfe4b3bc6ddf346d49d06ea0ed34e621062c0e056c1d0405d266e10268a⟩
  pedP1 := ⟨felt 0x0234287dcbaffe7f969c748655fca9e58fa8120b6d56eb0c1080d17957ebe47b,
    felt 0x03b056f100f96fb21e889527d41f4e39940135dd7a6c94cc6ed0268ee89e5615⟩
  pedP2 := ⟨felt 0x04fa56f376c83db33f9dab2656558f3399099ec1de5e3018b7a6932dba8aa378,
    felt 0x03fa0984c931c9e38113e0c0e47e4401562761f92a7a23b45168f4e80ff5b54d⟩
  pedP3 := ⟨felt 0x04ba4cc166be8dec764910f75b45f74b40c690c74709e90f3aa372f0bd2d6997,
    felt 0x0040301cf5c1751f4b971e46c4ede85fcac5c59a5ce5ae7c48151f27b24b219c⟩
  pedP4 := ⟨felt 0x054302dcb0e6cc1c6e44cca8f61a63bb2ca65048d53fb325d36ff12c49a58202,
    felt 0x01b77b3e37d13504b348046268d8ae25ce98ad783c25561a879dcc77e99c2426⟩
  sigAlt := false

/-- The three points of order two of Config-2. -/
def pointA : Point := .affine 0 0
def pointB : Point := .affine 1 0
def pointC : Point := .affine top 0

/-- `2G` and `3G` of Config-S (95 2.4, K23 and K25). -/
def twoG : Point := .affine (felt 0x0759ca09377679ecd535a81e83039658bf40959283187c654c5416f439403cf5)
  (felt 0x06f524a3400e7708d5c01a28598ad272e7455aa88778b19f93b562d7a9646c41)
def threeG : Point := .affine (felt 0x0411494b501a98abd8262b0da1351e17899a0c4ef23dd2f96fec5ba847310b20)
  (felt 0x07e1b3ebac08924d2c26f409549191fcf94f3bf6f301ed3553e22dfb802f0686)

/-- The state after reset with the given constant tables and an empty buffer. -/
def start (p : Params) : State := State.initial p []

/-- Config-2 after reset, with `E[0] = a`, `E[1] = b`, `E[2] = c`. -/
def elements (a b c : Felt) : State := (((start config2).setE 0 a).setE 1 b).setE 2 c

/-- A state with `Pt[0] = a` and `Pt[1] = b`. -/
def points (p : Params) (a b : Point) : State := ((start p).setPt 0 a).setPt 1 b

/-- The state after a word is issued. -/
def after (w : Word) (s : State) : State :=
  match issue w s with
  | .next t => t
  | .fault _ => s
  | .refused _ => s

/-- The number `CsrRead(0)` returns after a word is issued. -/
def statusAfter (w : Word) (s : State) : Word := statusWord (after w s)

/-- The buffer in which the first bytes of slot 0 are the given ones. -/
def slot0 (bytes : List Byte) : Memory := Memory.writeBytes [] 0 bytes

/-- The bytes of row M4 (`P - 1`) but the last. -/
def rowM4 (last : Byte) : List Byte := [0x08, 0, 0, 0, 0, 0, 0, 0x11] ++ List.replicate 23 0 ++ [last]

/-! ### Well-formedness -/

theorem test_wf_poseidon_14_refused : (Instr.poseidon 14).wellFormed = false := by decide
theorem test_wf_poseidon_15_refused : (Instr.poseidon 15).wellFormed = false := by decide
theorem test_wf_poseidon_13 : (Instr.poseidon 13).wellFormed = true := by decide

/-! ### Decoding (95 2.1) -/

theorem test_decode_system_and_elements :
    decode 0x00000000#32 = .ok .nop ∧ decode 0x01000000#32 = .ok .clrerr ∧
    decode 0x10100002#32 = .ok (.lde 1 2) ∧ decode 0x11F0001F#32 = .ok (.ste 15 31) ∧
    decode 0x12000FFF#32 = .ok (.fli 0 4095) ∧ decode 0x13920000#32 = .ok (.fmov 9 2) :=
  ⟨rfl, rfl, rfl, rfl, rfl, rfl⟩

theorem test_decode_field :
    decode 0x20312000#32 = .ok (.fadd 3 1 2) ∧ decode 0x21312000#32 = .ok (.fsub 3 1 2) ∧
    decode 0x22210000#32 = .ok (.fneg 2 1) ∧ decode 0x23312000#32 = .ok (.fmul 3 1 2) ∧
    decode 0x24210000#32 = .ok (.fsqr 2 1) ∧ decode 0x25210000#32 = .ok (.finv 2 1) ∧
    decode 0x26312000#32 = .ok (.fpow 3 1 2) ∧ decode 0x27120000#32 = .ok (.feq 1 2) :=
  ⟨rfl, rfl, rfl, rfl, rfl, rfl, rfl, rfl⟩

theorem test_decode_curve :
    decode 0x307FF000#32 = .ok (.pset 7 15 15) ∧ decode 0x31300000#32 = .ok (.pinf 3) ∧
    decode 0x32100000#32 = .ok (.pgen 1) ∧ decode 0x33210000#32 = .ok (.pmov 2 1) ∧
    decode 0x34F70000#32 = .ok (.pgetx 15 7) ∧ decode 0x35010000#32 = .ok (.pgety 0 1) ∧
    decode 0x36000000#32 = .ok (.pisinf 0) ∧ decode 0x37120000#32 = .ok (.ponc 1 2) ∧
    decode 0x38010000#32 = .ok (.peq 0 1) ∧ decode 0x39210000#32 = .ok (.pneg 2 1) ∧
    decode 0x3A701000#32 = .ok (.padd 7 0 1) ∧ decode 0x3B100000#32 = .ok (.pdbl 1 0) ∧
    decode 0x3C7F7000#32 = .ok (.smul 7 15 7) ∧ decode 0x3C2F1000#32 = .ok (.smul 2 15 1) :=
  ⟨rfl, rfl, rfl, rfl, rfl, rfl, rfl, rfl, rfl, rfl, rfl, rfl, rfl, rfl⟩

theorem test_decode_hash_and_signature :
    decode 0x40D00000#32 = .ok (.poseidon 13) ∧ decode 0x41312000#32 = .ok (.pedersen 3 1 2) ∧
    decode 0x50FFF700#32 = .ok (.verify 15 15 15 7) ∧ decode 0x51012340#32 = .ok (.verifyxy 0 1 2 3 4) ∧
    decode 0x52100000#32 = .ok (.schk 1) :=
  ⟨rfl, rfl, rfl, rfl, rfl⟩

theorem test_decode_illegal_opcodes :
    [0x02000000#32, 0x0F000000#32, 0x14000000#32, 0x28000000#32, 0x3D000000#32, 0x42000000#32, 0x53000000#32,
      0xFF000000#32].map decode = List.replicate 8 (.error .opcode) := rfl

theorem test_decode_illegal_bits :
    [0x00000001#32, 0x01100000#32, 0x20312001#32, 0x20312100#32, 0x13921000#32, 0x10100020#32, 0x10110002#32,
      0x12501000#32, 0x3A700800#32, 0x50012301#32, 0x51012341#32, 0x52110000#32].map decode =
      List.replicate 12 (.error .mustBeZero) := rfl

theorem test_decode_illegal_registers :
    [0x3A801000#32, 0x3A708000#32, 0x3C249000#32, 0x34080000#32, 0x30812000#32, 0x50012800#32].map decode =
      List.replicate 6 (.error .pointRegister) ∧
    [0x40E00000#32, 0x40F00000#32].map decode = List.replicate 2 (.error .poseidonBase) := ⟨rfl, rfl⟩

/-! ### One step of every command (95 2.2 to 2.8) -/

theorem test_nop_keeps_latch : statusAfter 0x00000000#32 (after 0x25210000#32 (elements 0 0 0)) = 0x200#32 := by
  decide +kernel
theorem test_clrerr : statusAfter 0x01000000#32 (after 0x25210000#32 (elements 0 0 0)) = 0#32 ∧
    (after 0x01000000#32 (after 0x25210000#32 (elements 0 0 0))).errcmd = 0#32 := by decide +kernel
theorem test_illegal_word_first_error_kept :
    statusAfter 0x02000000#32 (after 0x25210000#32 (elements 0 0 0)) = 0x250#32 ∧
    (after 0x02000000#32 (after 0x25210000#32 (elements 0 0 0))).errcmd = 0x25210000#32 := by decide +kernel
theorem test_lde_top : (after 0x10100000#32 ((start config2).setBuf (slot0 (rowM4 0)))).getE 1 = top := by
  decide +kernel
theorem test_lde_of_P : statusAfter 0x10100000#32 ((start config2).setBuf (slot0 (rowM4 1))) = 0x110#32 := by
  decide +kernel
theorem test_ste_258 : (after 0x11F0001F#32 ((start config2).setE 15 258)).buf = [(1022, 1), (1023, 2)] := by
  decide +kernel
theorem test_fli : (after 0x12000FFF#32 (start config2)).getE 0 = felt 4095 := by decide +kernel
theorem test_fmov : (after 0x13920000#32 (elements 0 0 7)).getE 9 = felt 7 := by decide +kernel
theorem test_fadd_wraps : (after 0x20312000#32 (elements 0 top 5)).getE 3 = felt 4 := by decide +kernel
theorem test_fsub_minuend : (after 0x21312000#32 (elements 0 3 5)).getE 3 = felt (P - 2) := by decide +kernel
theorem test_fneg_zero : (after 0x22210000#32 (elements 0 0 9)).getE 2 = felt 0 := by decide +kernel
theorem test_fmul : (after 0x23312000#32 (elements 0 (felt (2 ^ 251)) 2)).getE 3 =
    felt 0x07ffffffffffffeeffffffffffffffffffffffffffffffffffffffffffffffff := by decide +kernel
theorem test_fsqr : (after 0x24210000#32 (elements 0 (felt (2 ^ 200)) 0)).getE 2 =
    felt 0x07fff66780000010ffffffffffe000000000000043ffffffffffff6f80000001 := by decide +kernel
theorem test_finv : (after 0x25210000#32 (elements 0 2 0)).getE 2 =
    felt 0x0400000000000008800000000000000000000000000000000000000000000001 := by decide +kernel
theorem test_finv_zero : statusAfter 0x25210000#32 (elements 0 0 7) = 0x220#32 ∧
    (after 0x25210000#32 (elements 0 0 7)).getE 2 = felt 7 := by decide +kernel
theorem test_fpow : (after 0x26312000#32 (elements 0 3 5)).getE 3 = felt 243 := by decide +kernel
theorem test_fpow_zero_zero : (after 0x26312000#32 (elements 0 0 0)).getE 3 = felt 1 := by decide +kernel
theorem test_feq : (after 0x27120000#32 (elements 0 4 4)).flag = true ∧
    (after 0x27120000#32 (elements 0 0 top)).flag = false := by decide +kernel
theorem test_pset : (after 0x30201000#32 (elements 1 0 0)).getPt 2 = pointB := by decide +kernel
theorem test_pset_off_curve : statusAfter 0x30012000#32 (elements 0 1 1) = 0x330#32 := by decide +kernel
theorem test_pinf : (after 0x31000000#32 (points config2 pointA pointB)).getPt 0 = .identity := by decide +kernel
theorem test_pgen : (after 0x32100000#32 (start configS)).getPt 1 = .affine configS.gx configS.gy := by
  decide +kernel
theorem test_pmov : (after 0x33210000#32 (points config2 pointA pointB)).getPt 2 = pointB := by decide +kernel
theorem test_pgetx : (after 0x34010000#32 (points configS twoG threeG)).getE 0 =
    felt 0x0411494b501a98abd8262b0da1351e17899a0c4ef23dd2f96fec5ba847310b20 := by decide +kernel
theorem test_pgetx_identity_keeps_flag :
    statusAfter 0x34010000#32 ((start config2).setFlag true) = 0x661#32 := by decide +kernel
theorem test_pgety : (after 0x35010000#32 (points configS twoG threeG)).getE 0 =
    felt 0x07e1b3ebac08924d2c26f409549191fcf94f3bf6f301ed3553e22dfb802f0686 := by decide +kernel
theorem test_pgety_identity : statusAfter 0x35010000#32 (start config2) = 0x660#32 := by decide +kernel
theorem test_pisinf : (after 0x36000000#32 (start config2)).flag = true ∧
    (after 0x36000000#32 (points config2 pointA pointB)).flag = false := by decide +kernel
theorem test_ponc : (after 0x37120000#32 (elements 0 top 0)).flag = true ∧
    statusAfter 0x37120000#32 (elements 0 2 0) = 0#32 := by decide +kernel
theorem test_peq : (after 0x38010000#32 (start config2)).flag = true ∧
    (after 0x38010000#32 (points config2 pointA pointB)).flag = false := by decide +kernel
theorem test_pneg : (after 0x39210000#32 (points configS .identity configS.generator)).getPt 2 =
    .affine configS.gx (felt 0x07a997f9f55b68e04841b7fe20b9139d21ac132ee541bc5cd78cfff3c91723e2) := by
  decide +kernel
theorem test_padd_chord : (after 0x3A701000#32 (points configS configS.generator twoG)).getPt 7 = threeG := by
  decide +kernel
theorem test_padd_order_two : (after 0x3A701000#32 (points config2 pointA pointA)).getPt 7 = .identity ∧
    (after 0x3A701000#32 (points config2 pointA pointB)).getPt 7 = pointC := by decide +kernel
theorem test_pdbl : (after 0x3B100000#32 (points configS configS.generator .identity)).getPt 1 = twoG := by
  decide +kernel
theorem test_pdbl_order_two : (after 0x3B100000#32 (points config2 pointA pointB)).getPt 1 = .identity := by
  decide +kernel
theorem test_smul : (after 0x3C241000#32 ((points configS .identity configS.generator).setE 4 5)).getPt 2 =
    .affine (felt 0x0788435d61046d3eec54d77d25bd194525f4fa26ebe6575536bc6f656656b74c)
      (felt 0x013926386b9e5e908c359519eaa68c44a2430f4b4ca5d0dbdcb4231f031eb18b) := by decide +kernel
theorem test_smul_out_of_range :
    statusAfter 0x3C241000#32 ((points config2 pointA pointB).setE 4 2) = 0x440#32 := by decide +kernel
theorem test_poseidon_order_of_rounds :
    [0, 1, 2].map (fun i => (after 0x40000000#32 (elements 1 2 3)).getE i) =
      [felt 0x01b666d5805ed08d06410e, felt 0x8e9cff4fa746d4626954, felt 0x89544c586de8d706d50f] := by
  decide +kernel
theorem test_poseidon_matrix_orientation :
    mix ⟨⟨1, 2, 3⟩, ⟨4, 5, 6⟩, ⟨7, 8, 10⟩⟩ ⟨1, 8, 27⟩ = ⟨98, 206, 341⟩ := by decide +kernel
theorem test_pedersen : (after 0x41312000#32 (((start configS).setE 1 1).setE 2 2)).getE 3 =
    felt 0x05bb9440e27889a364bcb678b1f679ecd1347acdedcbf36e83494f857cc58026 := by decide +kernel
theorem test_pedersen_identity : statusAfter 0x41401000#32 (elements 1 0 0) = 0x660#32 ∧
    (after 0x41401000#32 (elements (felt (2 ^ 248)) 0 0)).getE 4 = top := by decide +kernel
theorem test_verify : (after 0x50011000#32 ((elements 0 1 0).setPt 0 pointB)).flag = true ∧
    (after 0x50111000#32 ((elements 0 1 0).setPt 0 pointB)).flag = false := by decide +kernel
theorem test_verify_sum_is_identity :
    statusAfter 0x50111000#32 (((elements 0 1 0).setPt 0 pointA).setFlag true) = 0#32 := by decide +kernel
theorem test_verifyxy : (after 0x51111200#32 (elements 0 1 top)).flag = true ∧
    statusAfter 0x51111110#32 ((elements 0 1 top).setFlag true) = 0#32 := by decide +kernel
theorem test_schk : statusAfter 0x52100000#32 (elements 0 1 2) = 0#32 ∧
    statusAfter 0x52200000#32 (elements 0 1 2) = 0x440#32 ∧
    statusAfter 0x52000000#32 (elements 0 1 2) = 0x440#32 := by decide +kernel
theorem test_csr_after_reset : (List.finRange 4).map (csrValue (start config2)) = [0#32, 0#32, 0x5A534401#32, 0#32] := by
  decide +kernel
theorem test_assembly : assembly (.lde 1 2) = "LDE e1, [2]" ∧ assembly .nop = "NOP" ∧
    assembly (.fli 5 0x7FF) = "FLI e5, 2047" := by decide +kernel

/-- The reference reducer on the rows of 95 2.2. -/
theorem test_barrett : barrett ((P - 1) ^ 2) = 1 ∧ barrett (2 * P) = 0 ∧
    barrett (2 ^ 504 - 1) = 0x07ffffd4ab5e0098ffffffffffff6f800000000001330ffffffffffd737e0004 := by
  decide +kernel

/-! ### Witnesses of the statements' hypotheses -/

/-- Config-2 with the other generator of order two, so that a signature can be made under it, and `SIG_ALT = 1`. -/
def config2B : Params := { config2 with gx := 1, sigAlt := true }

theorem smul_of_order_two (p : Params) (x : Felt) (k : Nat) :
    smul p k (.affine x 0) = if k % 2 = 1 then .affine x 0 else .identity := by
  have hd : padd p (.affine x 0) (.affine x 0) = .identity := by simp [padd]
  induction k using Nat.strongRecOn with
  | ind k ih =>
    by_cases hk : k = 0
    · simp [hk]
    · rw [smul_step p _ hk, ih (k / 2) (by omega)]
      by_cases h : k / 2 % 2 = 1 <;> simp [h, hd]

theorem test_witness_wellFormedParams : WellFormedParams config2 where
  generatorOnCurve := by decide +kernel
  shiftOnCurve := by decide +kernel
  ped1OnCurve := by decide +kernel
  ped2OnCurve := by decide +kernel
  ped3OnCurve := by decide +kernel
  ped4OnCurve := by decide +kernel
  orderPrime := Nat.prime_two
  orderOfGenerator := by decide +kernel
  nonSingular := by decide +kernel

theorem test_witness_wellFormedParams_config2B : WellFormedParams config2B where
  generatorOnCurve := by decide +kernel
  shiftOnCurve := by decide +kernel
  ped1OnCurve := by decide +kernel
  ped2OnCurve := by decide +kernel
  ped3OnCurve := by decide +kernel
  ped4OnCurve := by decide +kernel
  orderPrime := Nat.prime_two
  orderOfGenerator := by decide +kernel
  nonSingular := by decide +kernel

/-- The coordinates of a point of order three of `config3`. -/
def config3x : Felt := felt 0x03ffffffffffffeeffffffffffffffffffffffffffffffffffffffffffffffff
def config3y : Felt := felt 0x07ffffffffea68f0ffffffffffffffffb800000000000098fffffffffffebae1

/-- A curve `y^2 = x^3 + BETA` whose generator has order three, so that two different `s` are in range. -/
def config3 : Params where
  alpha := 0
  beta := felt 0x043cf6ffbee2ebd3b000136c2f9d248effd6ba1ad253158057b4870085cee347
  gx := config3x
  gy := config3y
  n := 3
  posFull1 := []
  posPartial := []
  posFull2 := []
  posM := matrixT
  pedShift := ⟨config3x, config3y⟩
  pedP1 := ⟨config3x, config3y⟩
  pedP2 := ⟨config3x, config3y⟩
  pedP3 := ⟨config3x, config3y⟩
  pedP4 := ⟨config3x, config3y⟩
  sigAlt := false

theorem test_witness_wellFormedParams_config3 : WellFormedParams config3 where
  generatorOnCurve := by decide +kernel
  shiftOnCurve := by decide +kernel
  ped1OnCurve := by decide +kernel
  ped2OnCurve := by decide +kernel
  ped3OnCurve := by decide +kernel
  ped4OnCurve := by decide +kernel
  orderPrime := Nat.prime_three
  orderOfGenerator := by decide +kernel
  nonSingular := by decide +kernel

/-- Config-2 with a shift point and constant points that never cancel. -/
def configNever : Params := { config2 with pedP1 := ⟨1, 0⟩, pedP3 := ⟨1, 0⟩ }

theorem test_witness_pedersenNeverIdentity : PedersenNeverIdentity configNever := by
  intro x y
  have hAB : padd configNever (.affine 0 0) (.affine 1 0) = .affine top 0 := by decide +kernel
  have hCB : padd configNever (.affine top 0) (.affine 1 0) = .affine 0 0 := by decide +kernel
  have h1 : configNever.pedP1.point = .affine 1 0 := rfl
  have h2 : configNever.pedP2.point = .affine 1 0 := rfl
  have h3 : configNever.pedP3.point = .affine 1 0 := rfl
  have h4 : configNever.pedP4.point = .affine 1 0 := rfl
  have h0 : configNever.pedShift.point = .affine 0 0 := rfl
  simp only [pedersenPoint, h0, h1, h2, h3, h4, smul_of_order_two]
  split_ifs <;> simp [hAB, hCB]

theorem test_witness_DecodeOfEncode : (Instr.poseidon 13).wellFormed = true ∧ (Instr.verifyxy 15 15 15 15 15).wellFormed = true := by
  decide
theorem test_witness_EncodeOfDecode : decode 0x51012340#32 = .ok (.verifyxy 0 1 2 3 4) := rfl
theorem test_witness_DecoderAgreesWithOpcodeMap :
    ("POSEIDON", 0x40000000#32, 0xFF0FFFFF#32) ∈ opcodeMap ∧ decode 0x40D00000#32 = .ok (.poseidon 13) ∧
    decode 0x40E00000#32 = .error .poseidonBase := ⟨by decide, rfl, rfl⟩
theorem test_witness_StepRunsDecodedCommand :
    decode 0x20312000#32 = .ok (.fadd 3 1 2) ∧
    (present (start config2) 0x20312000#32).pending = .issue 0x20312000#32 :: [] := ⟨rfl, rfl⟩
theorem test_witness_StepMakesTheNextTransaction :
    (start config2).pending = [] ∧ (present (start config2) 0#32).pending = .issue 0#32 :: [] := ⟨rfl, rfl⟩
theorem test_witness_IllegalCommandExactlyForIllegalWords : decode 0x02000000#32 = .error .opcode := rfl
theorem test_witness_OnlyListedErrorsAreRaised :
    issue 0x02000000#32 (start config2) = .next (after 0x02000000#32 (start config2)) ∧
    (after 0x02000000#32 (start config2)).last = some .illegalCommand := ⟨rfl, rfl⟩
theorem test_witness_AcknowledgeError :
    exec .clrerr ((start config2).raise .divisionByZero 0#32) =
      .next ((start config2).raise .divisionByZero 0#32).acknowledge.complete ∧
    ((start config2).raise .divisionByZero 0#32).err ≠ none := ⟨rfl, by decide⟩
theorem test_witness_LoadElement_of_top_and_of_P :
    (∑ k ∈ Finset.range 32, ((slot0 (rowM4 0)).read (32 * 0 + k)).toNat * 256 ^ (31 - k) = P - 1) ∧
    (∑ k ∈ Finset.range 32, ((slot0 (rowM4 1)).read (32 * 0 + k)).toNat * 256 ^ (31 - k) = P) := by decide +kernel
theorem test_witness_StoreElement : (start config2).buf.wf = true ∧ (slot0 (rowM4 1)).wf = true := by decide +kernel
theorem test_witness_ElementEncodingIsBijective :
    (rowM4 0).length = 32 ∧ decode32 (rowM4 0) = .ok top ∧ bigEndian (rowM4 0) < P ∧
    (rowM4 1).length = 32 ∧ P ≤ bigEndian (rowM4 1) := ⟨rfl, by decide +kernel, by decide +kernel, rfl, by decide +kernel⟩
theorem test_witness_HostWritesAndReadsASlot : (start config2).buf.wf = true ∧ 2 ^ 256 - 1 < 2 ^ 256 := ⟨rfl, by omega⟩
theorem test_witness_FieldInverse : ((elements 0 0 0).getE 1).val = 0 ∧ ((elements 0 top 0).getE 1).val ≠ 0 := by
  decide +kernel
theorem test_witness_PowerLadderIsExact : 1 ≤ 2 ^ 252 - 1 ∧ 2 ^ 252 - 1 < 2 ^ 252 := by omega
theorem test_witness_FieldFunctionsByCases :
    top.val + (felt 0).val < P ∧ P ≤ top.val + (felt 1).val ∧ (felt 1).val ≤ (felt 1).val ∧ (felt 0).val < (felt 1).val ∧
    (felt 0).val = 0 ∧ (felt 1).val ≠ 0 := by decide +kernel
theorem test_witness_FieldLaws : (felt 1).val ≠ 0 := by decide +kernel
theorem test_witness_BarrettReducerIsExact : 2 ^ 504 - 1 < 2 ^ 504 := by decide +kernel
theorem test_witness_MakePoint :
    (0 ^ 2 % P = (0 ^ 3 + config2.alpha.val * 0 + config2.beta.val) % P) ∧
    (1 ^ 2 % P ≠ (1 ^ 3 + config2.alpha.val * 1 + config2.beta.val) % P) := by decide +kernel
theorem test_witness_ReadCoordinates :
    (points config2 pointB .identity).getPt 0 = .affine 1 0 ∧ (points config2 pointB .identity).getPt 1 = .identity := by
  decide +kernel
theorem test_witness_PointNegation :
    (points config2 pointB .identity).getPt 0 = .affine 1 0 ∧ (0 : Felt).val = 0 ∧
    (points config2 pointB .identity).getPt 1 = .identity := by decide +kernel
theorem test_witness_PointAddition :
    (points configS configS.generator .identity).getPt 1 = .identity ∧
    (points configS configS.generator configS.generator).getPt 0 = .affine configS.gx configS.gy ∧
    (points configS configS.generator configS.generator).getPt 1 = .affine configS.gx configS.gy ∧
    configS.gy.val ≠ 0 ∧ (felt 0).val = 0 ∧ configS.gy ≠ fneg configS.gy ∧ (0 : Felt) ≠ 1 := by decide +kernel
theorem test_witness_PointDoubling :
    (points config2 pointA .identity).getPt 0 = .affine 0 0 ∧ (points config2 pointA .identity).getPt 1 = .identity ∧
    (points configS configS.generator .identity).getPt 0 = .affine configS.gx configS.gy ∧ configS.gy.val ≠ 0 := by
  decide +kernel
theorem test_witness_ScalarMultiplication :
    ((elements 0 1 2).getE 1).val < (elements 0 1 2).params.n ∧ (elements 0 1 2).params.n ≤ ((elements 0 1 2).getE 2).val ∧
    WellFormedParams (elements 0 1 2).params :=
  ⟨by decide +kernel, by decide +kernel, test_witness_wellFormedParams⟩
theorem test_witness_ScalarMultiplicationIsRepeatedAddition :
    (1 ≤ 1 ∧ 1 % 2 = 1) ∧ (1 ≤ 2 ∧ 2 % 2 = 0) ∧ WellFormedParams config2 ∧ pointValid config2 pointB = true :=
  ⟨by decide, by decide, test_witness_wellFormedParams, by decide +kernel⟩
theorem test_witness_ScalarLadderIsExact : 2 ^ 252 - 1 < 2 ^ 252 := by decide +kernel
theorem test_witness_PointsFormCommutativeGroup :
    WellFormedParams config2 ∧ pointValid config2 pointA = true ∧ pointValid config2 pointB = true ∧
    pointValid config2 pointC = true :=
  ⟨test_witness_wellFormedParams, by decide +kernel, by decide +kernel, by decide +kernel⟩
theorem test_witness_PoseidonCommand : (13 : EReg).val ≤ 13 ∧ 13 < (14 : EReg).val := by decide
theorem test_witness_PoseidonRounds :
    config2.posFull1[0]? = some ⟨1, 2, 3⟩ ∧ config2.posPartial[0]? = some 4 ∧ config2.posFull2[0]? = some ⟨5, 6, 7⟩ :=
  ⟨rfl, rfl, rfl⟩
theorem test_witness_PedersenCommand :
    pedersenPoint config2 0 1 = pointB ∧ pedersenPoint config2 1 0 = .identity := by decide +kernel
theorem test_witness_PedersenOfZeros : ((elements 0 0 0).getE 1).val = 0 ∧ ((elements 0 0 0).getE 2).val = 0 := by
  decide +kernel
theorem test_witness_SignatureRangeCheck :
    (1 ≤ ((elements 0 1 2).getE 1).val ∧ ((elements 0 1 2).getE 1).val < config2.n) ∧
    ((elements 0 1 2).getE 0).val = 0 ∧ config2.n ≤ ((elements 0 1 2).getE 2).val := by decide +kernel
theorem test_witness_VerifyCommand :
    Nat.Prime (elements 0 1 2).params.n ∧ verify config2 0 1 1 pointB = true ∧ verify config2 1 1 1 pointB = false :=
  ⟨Nat.prime_two, by decide +kernel, by decide +kernel⟩
theorem test_witness_AlternateConvention :
    (config2B.sigAlt = true ∧ verifyPoint config2B 0 1 1 pointA ≠ .identity ∧
      verifyPoint config2B 0 1 1 (pneg pointA) ≠ .identity) ∧
    (config2.sigAlt = false ∧ verifyPoint config2 0 1 1 pointB = .affine 1 0 ∧ verify config2 0 1 1 pointB = true) := by
  decide +kernel
theorem test_witness_MessageEntersModuloN : (2 : Felt).val = (0 : Felt).val + config2.n := by decide +kernel
theorem test_witness_NegatedSignatureVerifies :
    WellFormedParams config3 ∧ pointValid config3 config3.generator = true ∧
    smul config3 config3.n config3.generator = .identity ∧
    (1 : Felt) ≠ 2 ∧ (2 : Felt).val + (1 : Felt).val = config3.n ∧
    verify config3 0 1 1 config3.generator = true :=
  ⟨test_witness_wellFormedParams_config3, by decide +kernel, by decide +kernel, by decide +kernel, by decide +kernel,
    by decide +kernel⟩
theorem test_witness_SignThenVerify :
    WellFormedParams config2B ∧ 1 < config2B.n ∧ smul config2B 1 config2B.generator = .affine 1 0 ∧
    (1 : Felt).val = (1 : Felt).val % config2B.n ∧ (1 : Felt).val ≠ 0 ∧ (1 : Felt).val < config2B.n ∧
    (1 : Felt).val * 1 % config2B.n = ((0 : Felt).val + (1 : Felt).val * 1) % config2B.n :=
  ⟨test_witness_wellFormedParams_config2B, by decide, by decide +kernel, by decide +kernel, by decide +kernel,
    by decide +kernel, by decide +kernel⟩
theorem test_witness_initial_state_is_sound : Sound (start config2) where
  params := test_witness_wellFormedParams
  points i := by simp [start, State.initial, State.getPt, pointValid]
  buffer := rfl
  errcmdZero _ := rfl
  lastRecorded h := absurd rfl h
theorem test_witness_StepKeepsSoundness :
    Sound (present (start config2) 0x32000000#32) ∧
    step (present (start config2) 0x32000000#32) = .next (after 0x32000000#32 (start config2)) :=
  ⟨{ test_witness_initial_state_is_sound with }, rfl⟩
theorem test_witness_InitialStateIsSound : WellFormedParams config2 := test_witness_wellFormedParams
theorem test_witness_StepKeepsConstantTables :
    step (present (start config2) 0x32000000#32) = .next (after 0x32000000#32 (start config2)) := rfl
theorem test_witness_StepKeepsBufferCanonical :
    (present (start config2) 0x11000000#32).buf.wf = true ∧
    step (present (start config2) 0x11000000#32) = .next (after 0x11000000#32 (start config2)) := ⟨rfl, rfl⟩
theorem test_witness_CommandsWriteOnlyTheirDestinations :
    (after 0x12000001#32 (start config2)).getE 0 ≠ (start config2).getE 0 ∧
    (after 0x32000000#32 (start config2)).getPt 0 ≠ (start config2).getPt 0 ∧
    (after 0x36000000#32 (start config2)).flag ≠ (start config2).flag ∧
    (after 0x11F0001F#32 ((start config2).setE 15 258)).buf.read 1022 ≠ (start config2).buf.read 1022 := by
  decide +kernel
theorem test_witness_StatusDoesNotSteerCommands :
    (start config2).err ≠ ((start config2).raise .divisionByZero 0#32).err ∧
    (start config2).e = ((start config2).raise .divisionByZero 0#32).e ∧
    (start config2).pt = ((start config2).raise .divisionByZero 0#32).pt ∧
    (start config2).buf = ((start config2).raise .divisionByZero 0#32).buf ∧
    (start config2).flag = ((start config2).raise .divisionByZero 0#32).flag := by decide +kernel
theorem test_witness_OnlyLoadReadsTheBuffer :
    (∀ rd slot, Instr.nop ≠ .lde rd slot) ∧ exec .nop (start config2) = .next (start config2).complete := ⟨nofun, rfl⟩
theorem test_witness_NoErrorAtTheEndMeansNoError :
    (∀ w ∈ [0x12000001#32, 0#32], decode w ≠ .ok .clrerr) ∧
    transactAll ([0x12000001#32, 0#32].map .issue) (start config2) =
      .next (after 0#32 (after 0x12000001#32 (start config2))) ∧
    (after 0#32 (after 0x12000001#32 (start config2))).err = none := ⟨by simp; exact ⟨nofun, nofun⟩, rfl, rfl⟩
theorem test_witness_PseudoCommands :
    (3 : EReg) ≠ 1 ∧ ((elements 0 1 2).getE 2).val ≠ 0 ∧ ((elements 0 1 2).getE 0).val = 0 ∧ (3 : PReg) ≠ 1 := by
  decide +kernel
theorem test_witness_StorePointThenLoadPoint :
    (points config2 pointB .identity).buf.wf = true ∧ (1 : EReg) ≠ 2 ∧
    (points config2 pointB .identity).getPt 0 ≠ .identity ∧
    pointValid config2 ((points config2 pointB .identity).getPt 0) = true := by decide +kernel

end Sys2Proof.Tests
end

/-!
PROOFS of the statements about the state and the step (spec/10_state.md): what a transaction and a step can do, said
once, then the invariant of the transaction boundaries, the status registers and the destinations of a command.
-/

namespace Sys2Proof.Machine

/-! ### What an issued word, a transaction and a step can do -/

/-- Everything an issued word can do: its command completes, its command raises an error, or it is no command. -/
theorem issue_cases {w : Word} {s t : State} (h : issue w s = .next t) :
    (∃ i u, decode w = .ok i ∧ effect i s = .ok u ∧ t = u.complete) ∨
    (∃ i k, decode w = .ok i ∧ effect i s = .error k ∧ t = s.raise k (encode i)) ∨
    (∃ r, decode w = .error r ∧ t = s.raise .illegalCommand w) := by
  cases hd : decode w with
  | error r =>
    rw [issue_of_illegal s hd] at h
    exact .inr (.inr ⟨r, rfl, (Host.Outcome.next.inj h).symm⟩)
  | ok i =>
    rw [issue_of_decode s hd] at h
    obtain ⟨u, hu, ht⟩ | ⟨k, hk, ht⟩ := exec_cases h
    · exact .inl ⟨i, u, rfl, hu, ht⟩
    · exact .inr (.inl ⟨i, k, rfl, hk, ht⟩)

/-- Every command is answered by a next state (10_state R22). -/
theorem exec_answers (i : Instr) (s : State) : ∃ t, exec i s = .next t :=
  ⟨_, exec_eq_settle i s⟩

/-- Every transaction is answered by a next state (10_state R21). -/
theorem transact_answers (x : Transaction) (s : State) : ∃ t, transact x s = .next t := by
  cases x with
  | issue w =>
    cases hd : decode w with
    | ok i => simpa only [transact, issue_of_decode s hd] using exec_answers i s
    | error r => exact ⟨_, issue_of_illegal s hd⟩
  | reset _ | bufWrite _ _ | bufRead _ | csrRead _ => exact ⟨_, rfl⟩

/-- Everything a transaction can do. -/
theorem transact_cases {x : Transaction} {s t : State} (h : transact x s = .next t) :
    (∃ r, x = .reset r ∧ t = s.afterReset r) ∨ (∃ w, x = .issue w ∧ issue w s = .next t) ∨
    (∃ a v, x = .bufWrite a v ∧ t = s.setBuf (s.buf.write a.val v)) ∨
    (∃ a, x = .bufRead a ∧ t = s.reply (.byte (bufValue s a))) ∨
    (∃ i, x = .csrRead i ∧ t = s.reply (.csr (csrValue s i))) := by
  cases x with
  | reset r => exact .inl ⟨r, rfl, (Host.Outcome.next.inj h).symm⟩
  | issue w => exact .inr (.inl ⟨w, rfl, h⟩)
  | bufWrite a v => exact .inr (.inr (.inl ⟨a, v, rfl, (Host.Outcome.next.inj h).symm⟩))
  | bufRead a => exact .inr (.inr (.inr (.inl ⟨a, rfl, (Host.Outcome.next.inj h).symm⟩)))
  | csrRead i => exact .inr (.inr (.inr (.inr ⟨i, rfl, (Host.Outcome.next.inj h).symm⟩)))

/-- A step holds the state or makes the first pending transaction. -/
theorem step_cases {s t : State} (h : step s = .next t) :
    (s.pending = [] ∧ t = s) ∨
    (∃ x rest, s.pending = x :: rest ∧ transact x { s with pending := rest } = .next t) := by
  cases hp : s.pending with
  | nil => exact .inl ⟨rfl, (Host.Outcome.next.inj (step_idle hp ▸ h)).symm⟩
  | cons x rest => exact .inr ⟨x, rest, rfl, step_transact hp ▸ h⟩

theorem issue_keeps_params_pending {w : Word} {s t : State} (h : issue w s = .next t) :
    t.params = s.params ∧ t.pending = s.pending := by
  obtain ⟨i, u, -, hu, rfl⟩ | ⟨i, k, -, -, rfl⟩ | ⟨r, -, rfl⟩ := issue_cases h
  · obtain ⟨hparams, hpending, -⟩ := effect_ok_keeps hu
    exact ⟨hparams, hpending⟩
  all_goals simp

/-- No transaction touches the constant tables or the transactions to come (10_state R32; log entry 2). -/
theorem transact_keeps_params_pending {x : Transaction} {s t : State} (h : transact x s = .next t) :
    t.params = s.params ∧ t.pending = s.pending := by
  obtain ⟨r, -, rfl⟩ | ⟨w, -, hw⟩ | ⟨a, v, -, rfl⟩ | ⟨a, -, rfl⟩ | ⟨i, -, rfl⟩ := transact_cases h
  · simp
  · exact issue_keeps_params_pending hw
  all_goals simp

/-! ### The invariant of the transaction boundaries -/

/-- The reset values are sound for well-formed tables, whatever the buffer holds (10_state R36). -/
theorem sound_initial {p : Params} (hp : WellFormedParams p) (residue : Vector Byte 1024) :
    Sound (State.initial p (Memory.ofBytes residue)) where
  params := hp
  points i := by simp [State.initial, State.getPt, pointValid]
  buffer := Memory.wf_ofBytes residue
  errcmdZero _ := rfl
  lastRecorded h := absurd rfl h

theorem Sound.afterReset {s : State} (hs : Sound s) (residue : Vector Byte 1024) : Sound (s.afterReset residue) :=
  { sound_initial hs.params residue with }

/-- A host write lands inside the buffer, so it keeps the canonical form (20_memory R53). -/
theorem Sound.bufWrite {s : State} (hs : Sound s) (a : Addr) (v : Byte) :
    Sound (s.setBuf (s.buf.write a.val v)) :=
  { hs with buffer := Memory.wf_write v a.isLt hs.buffer }

theorem Sound.reply {s : State} (hs : Sound s) (x : Answer) : Sound (s.reply x) := { hs with }

theorem Sound.withPending {s : State} (hs : Sound s) (rest : List Transaction) :
    Sound { s with pending := rest } := { hs with }

/-- Error entry records the error it puts into `LAST` (60_exceptions R244). -/
theorem Sound.raise {s : State} (hs : Sound s) (k : ErrorKind) (w : Word) : Sound (s.raise k w) where
  params := by simpa using hs.params
  points i := by simpa using hs.points i
  buffer := by simpa using hs.buffer
  errcmdZero h := absurd h (s.raise_err_ne_none k w)
  lastRecorded _ := s.raise_err_ne_none k w

theorem pointValid_of_setPt {s u : State} {j : PReg} {q : Point} (hq : pointValid s.params q = true)
    (hu : s.setPt j q = u) : pointValid s.params (u.getPt j) = true := by
  subst hu
  simpa using hq

/-- What a command writes to a P register from a sound state is `Identity` or a point of the curve (10_state R26): each
point operation is closed on the curve (42_curve R162). -/
theorem effect_ok_pointDest_valid {i : Instr} {s u : State} {j : PReg} (hs : Sound s) (h : effect i s = .ok u)
    (hd : pointDest i = some j) : pointValid s.params (u.getPt j) = true := by
  have : Fact (Nat.Prime P) := ⟨P_prime⟩
  cases i <;> cases hd <;> simp only [effect, map_eq_ok, Except.ok.injEq] at h
  case pset =>
    obtain ⟨q, hq, hu⟩ := h
    obtain ⟨rfl, hon⟩ := checkedPoint_ok hq
    exact pointValid_of_setPt (q := .affine _ _) hon hu
  case pinf => exact pointValid_of_setPt rfl h
  case pgen => exact pointValid_of_setPt hs.params.generatorOnCurve h
  case pmov ps => exact pointValid_of_setPt (hs.points ps) h
  case pneg ps => exact pointValid_of_setPt (pointValid_pneg (hs.points ps)) h
  case padd ps1 ps2 => exact pointValid_of_setPt (pointValid_padd (hs.points ps1) (hs.points ps2)) h
  case pdbl ps => exact pointValid_of_setPt (pointValid_pdbl (hs.points ps)) h
  case smul rk ps =>
    obtain ⟨k, -, hu⟩ := h
    exact pointValid_of_setPt (pointValid_smul k (hs.points ps)) hu

/-- A command leaves every P register valid: its destination is, and the others are as before (10_state R26). -/
theorem effect_ok_points {i : Instr} {s u : State} (hs : Sound s) (h : effect i s = .ok u) (j : PReg) :
    pointValid s.params (u.getPt j) = true := by
  by_cases hd : pointDest i = some j
  · exact effect_ok_pointDest_valid hs h hd
  · obtain ⟨-, hpoints, -⟩ := effect_ok_frame hs.buffer h
    rw [hpoints j hd]
    exact hs.points j

/-- `ERRCMD` stays 0 whenever `ERR` is 0: `CLRERR` clears both and no other effect touches the latch (10_state R30). -/
theorem effect_ok_errcmdZero {i : Instr} {s u : State} (hs : Sound s) (h : effect i s = .ok u) (he : u.err = none) :
    u.errcmd = 0#32 := by
  obtain rfl | ⟨herr, herrcmd⟩ := effect_ok_latch h
  · rw [← Except.ok.inj h, State.acknowledge_errcmd]
  · rw [herrcmd]
    exact hs.errcmdZero (herr ▸ he)

/-- A command that completes keeps the invariant. -/
theorem Sound.complete_effect {i : Instr} {s u : State} (hs : Sound s) (h : effect i s = .ok u) : Sound u.complete := by
  obtain ⟨hparams, -, -⟩ := effect_ok_keeps h
  constructor
  case params => simpa [hparams] using hs.params
  case points => simpa [hparams] using effect_ok_points hs h
  case buffer => simpa using effect_ok_wf hs.buffer h
  case errcmdZero => simpa using effect_ok_errcmdZero hs h
  case lastRecorded => simp

theorem Sound.issue {w : Word} {s t : State} (hs : Sound s) (h : issue w s = .next t) : Sound t := by
  obtain ⟨i, u, -, hu, rfl⟩ | ⟨i, k, -, -, rfl⟩ | ⟨r, -, rfl⟩ := issue_cases h
  · exact hs.complete_effect hu
  · exact hs.raise k (encode i)
  · exact hs.raise .illegalCommand w

theorem Sound.transact {x : Transaction} {s t : State} (hs : Sound s) (h : transact x s = .next t) : Sound t := by
  obtain ⟨r, -, rfl⟩ | ⟨w, -, hw⟩ | ⟨a, v, -, rfl⟩ | ⟨a, -, rfl⟩ | ⟨i, -, rfl⟩ := transact_cases h
  · exact hs.afterReset r
  · exact hs.issue hw
  · exact hs.bufWrite a v
  · exact hs.reply _
  · exact hs.reply _

/-- Settles O50: a step holds the state or makes one transaction, and every transaction keeps the invariant. -/
theorem stepKeepsSoundness : Obligations.StepKeepsSoundness := by
  intro s t hs h
  obtain ⟨-, rfl⟩ | ⟨x, rest, -, hx⟩ := step_cases h
  · exact hs
  · exact (hs.withPending rest).transact hx

/-- Settles O51. -/
theorem initialStateIsSound : Obligations.InitialStateIsSound :=
  fun _ residue hp => sound_initial hp residue

/-! ### Steps and transactions -/

/-- Settles O6: every transaction answers, and what is to come is no part of what it changes. -/
theorem stepMakesTheNextTransaction : Obligations.StepMakesTheNextTransaction := by
  refine fun s => ⟨step_idle, fun x rest hp => ⟨step_transact hp, ?_⟩⟩
  obtain ⟨t, ht⟩ := transact_answers x { s with pending := rest }
  obtain ⟨-, hpending⟩ := transact_keeps_params_pending ht
  exact ⟨t, ht, hpending⟩

/-- Settles O53. -/
theorem stepKeepsConstantTables : Obligations.StepKeepsConstantTables := by
  intro s t h
  obtain ⟨hp, rfl⟩ | ⟨x, rest, hp, hx⟩ := step_cases h
  · simp [hp]
  · simpa [hp] using transact_keeps_params_pending hx

/-- Settles O5. -/
theorem stepRunsDecodedCommand : Obligations.StepRunsDecodedCommand := by
  intro s w i hd
  constructor
  · intro rest hp
    exact (step_transact hp).trans (issue_of_decode _ hd)
  · exact (step_withFetchWord s w).trans (issue_of_decode s hd)

/-- Settles O49. -/
theorem resetValues : Obligations.ResetValues :=
  fun residue s => ⟨s.afterReset residue, rfl, by simp, by simp, rfl, rfl, rfl, rfl,
    by simpa using Memory.read_ofBytes residue, rfl⟩

/-! ### The status registers -/

/-- A code fits into its four bits of `STATUS` (60_exceptions R240). -/
theorem codeOf_lt (k : Option ErrorKind) : codeOf k < 16 := by
  obtain _ | k := k
  · decide
  · cases k <;> decide

theorem statusWord_toNat (s : State) :
    (statusWord s).toNat = codeOf s.err * 2 ^ 8 + codeOf s.last * 2 ^ 4 + s.flag.toNat := by
  have herr := codeOf_lt s.err
  have hlast := codeOf_lt s.last
  have hflag := s.flag.toNat_lt
  rw [statusWord, BitVec.toNat_ofNat, Nat.mod_eq_of_lt (by omega)]

/-- The bits `start` up to `start + len` of `STATUS`, as the digits of its number. -/
theorem statusWord_extractLsb' (s : State) (start len : Nat) :
    ((statusWord s).extractLsb' start len).toNat =
      (codeOf s.err * 2 ^ 8 + codeOf s.last * 2 ^ 4 + s.flag.toNat) / 2 ^ start % 2 ^ len := by
  rw [BitVec.extractLsb'_toNat, statusWord_toNat, Nat.shiftRight_eq_div_pow]

/-- Bit 0 of `STATUS` is `FLAG`, the one odd summand (10_state R31). -/
theorem statusWord_bit_zero (s : State) : (statusWord s)[0] = s.flag := by
  rw [BitVec.getElem_eq_testBit_toNat, statusWord_toNat, Nat.testBit_zero]
  cases s.flag <;> simp <;> omega

/-- The fields of `STATUS` (10_state R31). -/
theorem statusWord_fields (s : State) :
    (statusWord s).extractLsb' 1 3 = 0 ∧ ((statusWord s).extractLsb' 4 4).toNat = codeOf s.last ∧
      ((statusWord s).extractLsb' 8 4).toNat = codeOf s.err ∧ (statusWord s).extractLsb' 12 20 = 0 := by
  have herr := codeOf_lt s.err
  have hlast := codeOf_lt s.last
  have hflag := s.flag.toNat_lt
  have hreserved : ((statusWord s).extractLsb' 1 3).toNat = 0 := by rw [statusWord_extractLsb']; omega
  have hlastField : ((statusWord s).extractLsb' 4 4).toNat = codeOf s.last := by rw [statusWord_extractLsb']; omega
  have herrField : ((statusWord s).extractLsb' 8 4).toNat = codeOf s.err := by rw [statusWord_extractLsb']; omega
  have hupper : ((statusWord s).extractLsb' 12 20).toNat = 0 := by rw [statusWord_extractLsb']; omega
  exact ⟨BitVec.eq_of_toNat_eq hreserved, hlastField, herrField, BitVec.eq_of_toNat_eq hupper⟩

/-- Settles O47. -/
theorem statusRegisterReads : Obligations.StatusRegisterReads := by
  refine fun i s => ⟨csrValue s i, rfl, ?_, ?_, ?_, ?_⟩ <;> rintro rfl
  · have hvalue := statusWord_toNat s
    rw [Bool.toNat, cond_eq_ite] at hvalue
    exact ⟨hvalue, statusWord_bit_zero s, statusWord_fields s⟩
  all_goals rfl

/-! ### The destinations of a command -/

/-- Settles O54: a destination that changed was written by an effect, and an effect writes no other. -/
theorem commandsWriteOnlyTheirDestinations : Obligations.CommandsWriteOnlyTheirDestinations := by
  intro w s t hw h
  obtain ⟨i, u, hd, hu, rfl⟩ | ⟨i, k, -, -, rfl⟩ | ⟨r, -, rfl⟩ := issue_cases h
  · obtain ⟨helements, hpoints, hflag, hbuffer⟩ := effect_ok_frame hw hu
    refine ⟨fun j hj => ⟨i, hd, ?_⟩, fun j hj => ⟨i, hd, ?_⟩, fun hf => ⟨i, hd, ?_⟩, fun a ha => ?_⟩
    · by_contra hn
      exact hj (helements j (Bool.eq_false_iff.2 hn))
    · by_contra hn
      exact hj (hpoints j hn)
    · by_contra hn
      exact hf (hflag (Bool.eq_false_iff.2 hn))
    · by_contra hn
      refine ha (hbuffer a fun slot hslot hin => hn ?_)
      obtain ⟨hlow, hhigh⟩ := hin
      exact ⟨i, slot, hd, hslot, hlow, hhigh⟩
  all_goals simp

end Sys2Proof.Machine

/-!
PROOFS of the statements about the operand buffer (spec/20_memory.md): the host's accesses to a byte, the canonical form
along every step, and that `LDE` is the one command that reads the buffer.
-/

namespace Sys2Proof.Machine

/-! ### The host's byte accesses -/

/-- A later write to an address hides an earlier one (20_memory R56). -/
theorem Memory.write_write {m : Memory} {a : Nat} (u v : Byte) (ha : a < 1024) (h : m.wf = true) :
    (m.write a u).write a v = m.write a v := by
  have hu : (m.write a u).wf = true := Memory.wf_write u ha h
  refine Memory.ext_read (Memory.wf_write v ha hu) (Memory.wf_write v ha h) fun b => ?_
  rw [Memory.read_write _ _ _ _ hu, Memory.read_write _ _ _ _ h, Memory.read_write _ _ _ _ h]
  split <;> rfl

/-- Settles O48: a write sets one byte and hides an equal write before it. -/
theorem hostByteAccess : Obligations.HostByteAccess := by
  intro a v s hw
  refine ⟨⟨s.buf.write a.val v, rfl, fun b => Memory.read_write _ _ _ _ hw, ?_⟩, rfl⟩
  calc transact (.bufWrite a v) (s.setBuf (s.buf.write a.val v))
    _ = .next (s.setBuf ((s.buf.write a.val v).write a.val v)) := rfl
    _ = .next (s.setBuf (s.buf.write a.val v)) := by rw [Memory.write_write v v a.isLt hw]

/-! ### The canonical form of the buffer -/

/-- Only the effect of a command can touch the buffer, and it keeps the canonical form. -/
theorem issue_keeps_wf {w : Word} {s t : State} (hw : s.buf.wf = true) (h : issue w s = .next t) :
    t.buf.wf = true := by
  obtain ⟨i, u, -, hu, rfl⟩ | ⟨i, k, -, -, rfl⟩ | ⟨r, -, rfl⟩ := issue_cases h
  · simpa using effect_ok_wf hw hu
  all_goals simpa using hw

theorem transact_keeps_wf {x : Transaction} {s t : State} (hw : s.buf.wf = true) (h : transact x s = .next t) :
    t.buf.wf = true := by
  obtain ⟨r, -, rfl⟩ | ⟨w, -, hi⟩ | ⟨a, v, -, rfl⟩ | ⟨a, -, rfl⟩ | ⟨i, -, rfl⟩ := transact_cases h
  · exact Memory.wf_ofBytes r
  · exact issue_keeps_wf hw hi
  · exact Memory.wf_write v a.isLt hw
  all_goals exact hw

/-- Settles O52: a step holds the state or makes one transaction, and every transaction keeps the canonical form. -/
theorem stepKeepsBufferCanonical : Obligations.StepKeepsBufferCanonical := by
  intro s t hw h
  obtain ⟨-, rfl⟩ | ⟨x, rest, -, hx⟩ := step_cases h
  · exact hw
  · exact transact_keeps_wf (s := { s with pending := rest }) hw hx

/-! ### Who reads the buffer -/

@[simp] theorem State.setBuf_setBuf (s : State) (m n : Memory) : (s.setBuf m).setBuf n = s.setBuf n := rfl

/-- Error entry neither reads nor writes the buffer (60_exceptions R244). -/
theorem State.raise_setBuf (s : State) (m : Memory) (k : ErrorKind) (w : Word) :
    (s.setBuf m).raise k w = (s.raise k w).setBuf m := by
  unfold State.raise
  rw [State.setBuf_err]
  split <;> rfl

/-- Writes that differ in the buffer only, after an operand that may be refused. -/
theorem map_setBuf {α : Type} {f g : α → State} {m : Memory} (x : Except ErrorKind α)
    (h : ∀ v, f v = (g v).setBuf m) : x.map f = (x.map g).map (·.setBuf m) := by
  cases x with
  | error k => rfl
  | ok v => exact congrArg Except.ok (h v)

/-- From another buffer, a command other than `LDE` raises the same error or makes the same writes outside the buffer:
`STE` stores to the buffer it finds, every other command leaves it. -/
theorem effect_setBuf {i : Instr} (hi : ∀ rd slot, i ≠ .lde rd slot) (s : State) (m : Memory) :
    ∃ m', effect i (s.setBuf m) = (effect i s).map (·.setBuf m') := by
  cases i <;> simp only [effect]
  case lde rd slot => exact absurd rfl (hi rd slot)
  case ste rs slot => exact ⟨storeSlot m slot (s.getE rs), by simp [Except.map]⟩
  all_goals refine ⟨m, ?_⟩
  case finv rd rs =>
    rw [State.getE_setBuf]
    split <;> rfl
  case poseidon => split <;> rfl
  case pset | pgetx | pgety | smul | pedersen | schk => exact map_setBuf _ fun _ => rfl
  all_goals rfl

/-- From another buffer, a command other than `LDE` answers the same state but for its buffer. -/
theorem exec_setBuf {i : Instr} {s t : State} (hi : ∀ rd slot, i ≠ .lde rd slot) (h : exec i s = .next t) (m : Memory) :
    ∃ m', exec i (s.setBuf m) = .next (t.setBuf m') := by
  obtain ⟨m', hm⟩ := effect_setBuf hi s m
  obtain ⟨u, hu, rfl⟩ | ⟨k, hk, rfl⟩ := exec_cases h
  · rw [hu] at hm
    exact ⟨m', exec_of_effect_ok hm⟩
  · rw [hk] at hm
    exact ⟨m, (exec_of_effect_error hm).trans (by rw [State.raise_setBuf])⟩

/-- Settles O56. -/
theorem onlyLoadReadsTheBuffer : Obligations.OnlyLoadReadsTheBuffer := by
  intro i s t m hi h
  obtain ⟨m', hm⟩ := exec_setBuf hi h m
  exact ⟨t.setBuf m', hm, rfl, rfl, rfl, rfl, rfl, rfl⟩

end Sys2Proof.Machine

/-!
PROOFS of the statements about the encoding (spec/30_encoding.md): decoding and encoding undo each other, the opcode map
says which words are commands, and what the host shorthands and the pseudo-commands do.
-/

namespace Sys2Proof.Machine

/-! ### Decoding the word of a command -/

/-- The round trip of each command, from the lemma of its constructor (Laws/PerInstr.lean). -/
theorem decode_encode : ∀ i : Instr, Laws.Encoding.Statement i
  | .nop => Laws.Encoding.nop
  | .clrerr => Laws.Encoding.clrerr
  | .lde _ _ => Laws.Encoding.lde _ _
  | .ste _ _ => Laws.Encoding.ste _ _
  | .fli _ _ => Laws.Encoding.fli _ _
  | .fmov _ _ => Laws.Encoding.fmov _ _
  | .fadd _ _ _ => Laws.Encoding.fadd _ _ _
  | .fsub _ _ _ => Laws.Encoding.fsub _ _ _
  | .fneg _ _ => Laws.Encoding.fneg _ _
  | .fmul _ _ _ => Laws.Encoding.fmul _ _ _
  | .fsqr _ _ => Laws.Encoding.fsqr _ _
  | .finv _ _ => Laws.Encoding.finv _ _
  | .fpow _ _ _ => Laws.Encoding.fpow _ _ _
  | .feq _ _ => Laws.Encoding.feq _ _
  | .pset _ _ _ => Laws.Encoding.pset _ _ _
  | .pinf _ => Laws.Encoding.pinf _
  | .pgen _ => Laws.Encoding.pgen _
  | .pmov _ _ => Laws.Encoding.pmov _ _
  | .pgetx _ _ => Laws.Encoding.pgetx _ _
  | .pgety _ _ => Laws.Encoding.pgety _ _
  | .pisinf _ => Laws.Encoding.pisinf _
  | .ponc _ _ => Laws.Encoding.ponc _ _
  | .peq _ _ => Laws.Encoding.peq _ _
  | .pneg _ _ => Laws.Encoding.pneg _ _
  | .padd _ _ _ => Laws.Encoding.padd _ _ _
  | .pdbl _ _ => Laws.Encoding.pdbl _ _
  | .smul _ _ _ => Laws.Encoding.smul _ _ _
  | .poseidon _ => Laws.Encoding.poseidon _
  | .pedersen _ _ _ => Laws.Encoding.pedersen _ _ _
  | .verify _ _ _ _ => Laws.Encoding.verify _ _ _ _
  | .verifyxy _ _ _ _ _ => Laws.Encoding.verifyxy _ _ _ _ _
  | .schk _ => Laws.Encoding.schk _

/-- Settles O1. -/
theorem decodeOfEncode : Obligations.DecodeOfEncode := decode_encode

/-- Settles O4. -/
theorem decodeExamples : Obligations.DecodeExamples := by
  unfold Obligations.DecodeExamples
  decide

/-! ### The word of a decoded command -/

section
variable {w : Word} {i : Instr} {rest : Except Illegal Instr}

theorem requireZero_eq_ok {hi lo : Nat} : requireZero w hi lo rest = .ok i ↔ bits w hi lo = 0 ∧ rest = .ok i := by
  rw [requireZero]
  split <;> simp [*]

/-- The P register a field names is the one with its number (30_encoding R76 step 3). -/
theorem withPReg_eq_ok {r : EReg} {rest : PReg → Except Illegal Instr} :
    withPReg r rest = .ok i ↔ ∃ p : PReg, p.val = r.val ∧ rest p = .ok i := by
  rw [withPReg]
  split
  next h =>
    constructor
    · exact fun ho => ⟨_, rfl, ho⟩
    · rintro ⟨p, hp, ho⟩
      obtain rfl : p = ⟨r.val, h⟩ := Fin.ext hp
      exact ho
  next h =>
    simp only [reduceCtorEq, false_iff, not_exists]
    rintro p ⟨hp, -⟩
    omega

/-- A requirement that leaves no bit of the word but the opcode and the given fields says that the word is packed from
them (30_encoding R72). -/
theorem requireZero_eq_ok_iff_pack {hi lo a b c low : Nat} (ha : a < 16) (hb : b < 16) (hc : c < 16) (hl : low < 4096)
    (hz : bits w hi lo = 0 ↔
      bits w 31 24 * 2 ^ 24 + a * 2 ^ 20 + b * 2 ^ 16 + c * 2 ^ 12 + low = w.toNat) :
    requireZero w hi lo rest = .ok i ↔ pack (bits w 31 24) a b c low = w ∧ rest = .ok i := by
  have hop : bits w 31 24 < 256 := Nat.mod_lt _ (by decide)
  rw [requireZero_eq_ok, hz, ← pack_toNat hop ha hb hc hl, BitVec.toNat_inj]

theorem formatZ_eq_ok {j : Instr} : formatZ w j = .ok i ↔
    pack (bits w 31 24) 0 0 0 0 = w ∧ (.ok j : Except Illegal Instr) = .ok i :=
  requireZero_eq_ok_iff_pack (by omega) (by omega) (by omega) (by omega) (by simp only [bits]; omega)

theorem formatR1_eq_ok : formatR1 w rest = .ok i ↔
    pack (bits w 31 24) (fieldA w).val 0 0 0 = w ∧ rest = .ok i :=
  requireZero_eq_ok_iff_pack (by omega) (by omega) (by omega) (by omega)
    (by simp only [bits, fieldA, regField]; omega)

theorem formatR2_eq_ok : formatR2 w rest = .ok i ↔
    pack (bits w 31 24) (fieldA w).val (fieldB w).val 0 0 = w ∧ rest = .ok i :=
  requireZero_eq_ok_iff_pack (by omega) (by omega) (by omega) (by omega)
    (by simp only [bits, fieldA, fieldB, regField]; omega)

theorem formatR3_eq_ok : formatR3 w rest = .ok i ↔
    pack (bits w 31 24) (fieldA w).val (fieldB w).val (fieldC w).val 0 = w ∧ rest = .ok i :=
  requireZero_eq_ok_iff_pack (by omega) (by omega) (by omega) (by omega)
    (by simp only [bits, fieldA, fieldB, fieldC, regField]; omega)

theorem formatR4_eq_ok : formatR4 w rest = .ok i ↔
    pack (bits w 31 24) (fieldA w).val (fieldB w).val (fieldC w).val ((fieldD w).val * 2 ^ 8) = w ∧ rest = .ok i :=
  requireZero_eq_ok_iff_pack (by omega) (by omega) (by omega) (by omega)
    (by simp only [bits, fieldA, fieldB, fieldC, fieldD, regField]; omega)

theorem formatR5_eq_ok : formatR5 w rest = .ok i ↔
    pack (bits w 31 24) (fieldA w).val (fieldB w).val (fieldC w).val
        ((fieldD w).val * 2 ^ 8 + (fieldE w).val * 2 ^ 4) = w ∧ rest = .ok i :=
  requireZero_eq_ok_iff_pack (by omega) (by omega) (by omega) (by omega)
    (by simp only [bits, fieldA, fieldB, fieldC, fieldD, fieldE, regField]; omega)

theorem formatM_eq_ok : formatM w rest = .ok i ↔
    pack (bits w 31 24) (fieldA w).val 0 0 (fieldSlot w).val = w ∧ rest = .ok i :=
  requireZero_eq_ok_iff_pack (by omega) (by omega) (by omega) (by omega)
    (by simp only [bits, fieldA, fieldSlot, regField]; omega)

theorem formatI_eq_ok : formatI w rest = .ok i ↔
    pack (bits w 31 24) (fieldA w).val 0 0 (fieldImm12 w).val = w ∧ rest = .ok i :=
  requireZero_eq_ok_iff_pack (by omega) (by omega) (by omega) (by omega)
    (by simp only [bits, fieldA, fieldImm12, regField]; omega)

end

/-- Settles O2: every arm of the decoder accepts only the word packed from the fields it reads. -/
theorem encodeOfDecode : Obligations.EncodeOfDecode := by
  intro w i h
  unfold decode at h
  generalize hop : bits w 31 24 = op at h
  split at h <;> simp only [formatZ_eq_ok, formatR1_eq_ok, formatR2_eq_ok, formatR3_eq_ok, formatR4_eq_ok,
    formatR5_eq_ok, formatM_eq_ok, formatI_eq_ok, withPReg_eq_ok, hop, Except.ok.injEq, reduceCtorEq] at h
  -- the arms by how many P registers they read
  case h_1 | h_2 | h_3 | h_4 | h_5 | h_6 | h_7 | h_8 | h_9 | h_10 | h_11 | h_12 | h_13 | h_14 | h_22 | h_29 | h_31 |
      h_32 =>
    obtain ⟨hw, rfl⟩ := h
    exact ⟨rfl, hw⟩
  case h_15 | h_16 | h_17 | h_19 | h_20 | h_21 | h_30 =>
    obtain ⟨hw, p, hp, rfl⟩ := h
    exact ⟨rfl, by rwa [← hp] at hw⟩
  case h_18 | h_23 | h_24 | h_26 | h_27 =>
    obtain ⟨hw, p, hp, q, hq, rfl⟩ := h
    exact ⟨rfl, by rwa [← hp, ← hq] at hw⟩
  case h_25 =>
    obtain ⟨hw, p, hp, q, hq, r, hr, rfl⟩ := h
    exact ⟨rfl, by rwa [← hp, ← hq, ← hr] at hw⟩
  case h_28 =>
    obtain ⟨hw, h⟩ := h
    split at h <;> cases h
    exact ⟨decide_eq_true ‹_›, hw⟩

/-! ### The rows of the opcode map -/

/-- The word with ones in the bits `hi` down to `lo`. -/
def blockMask (hi lo : Nat) : Word := BitVec.ofNat 32 ((2 ^ (hi + 1 - lo) - 1) * 2 ^ lo)

/-- Masking a word with a block keeps the bits of the block where they are. -/
theorem and_blockMask_toNat (w : Word) {hi lo : Nat} (h : hi < 32) :
    (w &&& blockMask hi lo).toNat = bits w hi lo * 2 ^ lo := by
  have hlt : (2 ^ (hi + 1 - lo) - 1) * 2 ^ lo < 2 ^ 32 := by
    by_cases hl : lo ≤ hi
    · calc (2 ^ (hi + 1 - lo) - 1) * 2 ^ lo
        _ < 2 ^ (hi + 1 - lo) * 2 ^ lo :=
          Nat.mul_lt_mul_of_pos_right (Nat.sub_lt (by positivity) one_pos) (by positivity)
        _ = 2 ^ (hi + 1) := by rw [← pow_add]; congr 1; omega
        _ ≤ 2 ^ 32 := Nat.pow_le_pow_right (by decide) h
    · simp [show hi + 1 - lo = 0 by omega]
  rw [BitVec.toNat_and, blockMask, BitVec.toNat_ofNat, Nat.mod_eq_of_lt hlt, bits]
  apply Nat.eq_of_testBit_eq
  intro k
  simp only [Nat.testBit_and, Nat.testBit_mul_two_pow, Nat.testBit_two_pow_sub_one, Nat.testBit_mod_two_pow,
    Nat.testBit_div_two_pow]
  by_cases hk : lo ≤ k
  · simp [hk, Bool.and_comm]
  · simp [hk]

/-- Two words agree under the mask of a block exactly when they have the same bits in it. -/
theorem and_blockMask_eq_iff (w m : Word) {hi lo : Nat} (h : hi < 32) :
    w &&& blockMask hi lo = m &&& blockMask hi lo ↔ bits w hi lo = bits m hi lo := by
  rw [← BitVec.toNat_inj, and_blockMask_toNat w h, and_blockMask_toNat m h]
  exact Nat.mul_left_inj (by positivity)

/-- Two words agree under a union of masks exactly when they agree under each. -/
theorem and_or_eq_iff (w m a b : Word) :
    w &&& (a ||| b) = m &&& (a ||| b) ↔ w &&& a = m &&& a ∧ w &&& b = m &&& b := by
  have hbit : ∀ x y p q : Bool, (x && (p || q)) = (y && (p || q)) ↔ (x && p) = (y && p) ∧ (x && q) = (y && q) :=
    by decide
  simp only [BitVec.eq_of_getLsbD_eq_iff, BitVec.getLsbD_and, BitVec.getLsbD_or, ← forall_and]
  exact forall_congr' fun k => by simp only [hbit]

/-- The mask of a row: ones in the opcode and in the given blocks (30_encoding R75). -/
def rowMask (blocks : List (Nat × Nat)) : Word :=
  blocks.foldr (fun b m => m ||| blockMask b.1 b.2) (blockMask 31 24)

theorem and_rowMask_eq_iff (w m : Word) {blocks : List (Nat × Nat)} (hb : ∀ b ∈ blocks, b.1 < 32) :
    w &&& rowMask blocks = m &&& rowMask blocks ↔
      bits w 31 24 = bits m 31 24 ∧ ∀ b ∈ blocks, bits w b.1 b.2 = bits m b.1 b.2 := by
  induction blocks with
  | nil => simp [rowMask, and_blockMask_eq_iff]
  | cons b blocks ih =>
    obtain ⟨h1, h2⟩ := List.forall_mem_cons.1 hb
    rw [rowMask, List.foldr_cons, ← rowMask, and_or_eq_iff, ih h2, and_blockMask_eq_iff _ _ h1, List.forall_mem_cons,
      and_assoc, and_comm (a := bits w b.1 b.2 = _)]

/-- The opcode of a command, the first byte of its word (30_encoding R71). -/
def opcode (i : Instr) : Nat := bits (encode i) 31 24

/-- The blocks `w[hi:lo]` that a word of the command has zero: the bits its format does not use (30_encoding R76
step 2), and the top bit of every field that names a P register (R76 step 3). -/
def zeroBlocks : Instr → List (Nat × Nat)
  | .nop | .clrerr => [(23, 0)]
  | .lde _ _ | .ste _ _ => [(19, 5)]
  | .fli _ _ => [(19, 12)]
  | .poseidon _ | .schk _ => [(19, 0)]
  | .pinf _ | .pgen _ | .pisinf _ => [(19, 0), (23, 23)]
  | .fmov _ _ | .fneg _ _ | .fsqr _ _ | .finv _ _ | .feq _ _ | .ponc _ _ => [(15, 0)]
  | .pgetx _ _ | .pgety _ _ => [(15, 0), (19, 19)]
  | .pmov _ _ | .peq _ _ | .pneg _ _ | .pdbl _ _ => [(15, 0), (23, 23), (19, 19)]
  | .fadd _ _ _ | .fsub _ _ _ | .fmul _ _ _ | .fpow _ _ _ | .pedersen _ _ _ => [(11, 0)]
  | .pset _ _ _ => [(11, 0), (23, 23)]
  | .smul _ _ _ => [(11, 0), (23, 23), (15, 15)]
  | .padd _ _ _ => [(11, 0), (23, 23), (19, 19), (15, 15)]
  | .verify _ _ _ _ => [(7, 0), (11, 11)]
  | .verifyxy _ _ _ _ _ => [(3, 0)]

/-- The row of a command in the opcode map (30_encoding R75). -/
def opcodeRow (i : Instr) : String × Word × Word := (mnemonic i, pack (opcode i) 0 0 0 0, rowMask (zeroBlocks i))

/-- One command of every mnemonic, in the order of the opcode map. -/
def onePerMnemonic : List Instr :=
  [.nop, .clrerr, .lde 0 0, .ste 0 0, .fli 0 0, .fmov 0 0, .fadd 0 0 0, .fsub 0 0 0, .fneg 0 0, .fmul 0 0 0, .fsqr 0 0,
   .finv 0 0, .fpow 0 0 0, .feq 0 0, .pset 0 0 0, .pinf 0, .pgen 0, .pmov 0 0, .pgetx 0 0, .pgety 0 0, .pisinf 0,
   .ponc 0 0, .peq 0 0, .pneg 0 0, .padd 0 0 0, .pdbl 0 0, .smul 0 0 0, .poseidon 0, .pedersen 0 0 0, .verify 0 0 0 0,
   .verifyxy 0 0 0 0 0, .schk 0]

/-- The opcode map is the table of the rows, literal by literal (30_encoding R75). -/
theorem opcodeMap_eq : opcodeMap = onePerMnemonic.map opcodeRow := by decide

theorem opcodeMap_nodup : (opcodeMap.map Prod.fst).Nodup := by decide

theorem opcodeRow_mem (i : Instr) : opcodeRow i ∈ opcodeMap := by
  cases i <;> simp (disch := omega) only [opcodeRow, opcode, encode, pack_op, mnemonic, zeroBlocks] <;> decide

theorem opcodeRow_eq {i j : Instr} (h : mnemonic i = mnemonic j) : opcodeRow i = opcodeRow j :=
  List.inj_on_of_nodup_map opcodeMap_nodup (opcodeRow_mem i) (opcodeRow_mem j) h

/-- The match of a row holds the opcode, and no bit of a field or of a block that has to be zero. -/
theorem opcodeRow_match (i : Instr) :
    pack (opcode i) 0 0 0 0 = pack (opcode i) 0 0 0 0 &&& rowMask (zeroBlocks i) ∧
    bits (pack (opcode i) 0 0 0 0) 31 24 = opcode i ∧
    ∀ b ∈ zeroBlocks i, b.1 < 32 ∧ bits (pack (opcode i) 0 0 0 0) b.1 b.2 = 0 := by
  cases i <;> simp (disch := omega) only [opcode, encode, pack_op, zeroBlocks] <;> decide

/-- The masked bits of a word are the match of a row exactly when the opcode is the row's and its blocks are zero. -/
theorem matches_opcodeRow_iff (w : Word) (i : Instr) :
    w &&& (opcodeRow i).2.2 = (opcodeRow i).2.1 ↔
      bits w 31 24 = opcode i ∧ ∀ b ∈ zeroBlocks i, bits w b.1 b.2 = 0 := by
  obtain ⟨hm, hop, hz⟩ := opcodeRow_match i
  rw [opcodeRow, hm, and_rowMask_eq_iff _ _ fun b hb => (hz b hb).1, hop]
  exact and_congr_right' (forall₂_congr fun b hb => by rw [(hz b hb).2])

/-- The word of a command matches the row of the command, whatever its operands. -/
theorem encode_matches_opcodeRow (i : Instr) : encode i &&& (opcodeRow i).2.2 = (opcodeRow i).2.1 := by
  refine (matches_opcodeRow_iff _ i).2 ⟨rfl, ?_⟩
  cases i <;>
    simp (disch := omega) only [zeroBlocks, List.forall_mem_cons, List.not_mem_nil, false_implies, implies_true,
      and_true, encode, bits, pack_toNat] <;>
    omega

/-- A field names a P register exactly when its top bit is zero (30_encoding R73). -/
theorem regField_lt_eight_iff (w : Word) (lo : Nat) : (regField w lo).val < 8 ↔ bits w (lo + 3) (lo + 3) = 0 := by
  simp only [bits, regField, Nat.add_sub_cancel_left]
  rw [pow_add, ← Nat.div_div_eq_div_mul]
  omega

/-- A word that matches a row passes every step of the decoder (30_encoding R76). -/
theorem decode_of_matches_opcodeRow {w : Word} {i : Instr} (h : w &&& (opcodeRow i).2.2 = (opcodeRow i).2.1)
    (hbase : mnemonic i = "POSEIDON" → (fieldA w).val ≤ 13) :
    ∃ j, decode w = .ok j ∧ mnemonic j = mnemonic i := by
  obtain ⟨hop, hz⟩ := (matches_opcodeRow_iff w i).1 h
  cases i <;>
    simp (disch := omega) only [zeroBlocks, List.forall_mem_cons, opcode, encode, pack_op, mnemonic] at hop hz hbase
  case poseidon =>
    simp [decode, hop, hz, formatR1, requireZero, hbase, mnemonic]
  all_goals
    simp [decode, hop, hz, formatZ, formatM, formatI, formatR1, formatR2, formatR3, formatR4, formatR5, requireZero,
      withPReg, fieldA, fieldB, fieldC, fieldD, regField_lt_eight_iff, mnemonic]

/-- The base of a well-formed `POSEIDON` is at most 13 in its word too (30_encoding R73). -/
theorem fieldA_encode_of_poseidon {i : Instr} (hw : i.wellFormed = true) (hm : mnemonic i = "POSEIDON") :
    (fieldA (encode i)).val ≤ 13 := by
  cases i <;> simp only [mnemonic, String.reduceEq] at hm
  case poseidon rb =>
    simp (disch := omega) only [encode, pack_fieldA]
    exact of_decide_eq_true hw

/-- A word is the command of a row exactly when it matches the row and the base of `POSEIDON` is at most 13. -/
theorem opcodeRow_iff (w : Word) (i : Instr) :
    (w &&& (opcodeRow i).2.2 = (opcodeRow i).2.1 ∧ (mnemonic i = "POSEIDON" → (fieldA w).val ≤ 13)) ↔
      ∃ j, decode w = .ok j ∧ mnemonic j = mnemonic i := by
  constructor
  · rintro ⟨hm, hbase⟩
    exact decode_of_matches_opcodeRow hm hbase
  · rintro ⟨j, hd, hj⟩
    obtain ⟨hw, rfl⟩ := encodeOfDecode w j hd
    rw [← opcodeRow_eq hj, ← hj]
    exact ⟨encode_matches_opcodeRow j, fieldA_encode_of_poseidon hw⟩

/-- Settles O3: every row is the row of a command, and every decoded command has a row. -/
theorem decoderAgreesWithOpcodeMap : Obligations.DecoderAgreesWithOpcodeMap := by
  intro w
  have hrow : ∀ r ∈ opcodeMap, (w &&& r.2.2 = r.2.1 ∧ (r.1 = "POSEIDON" → (fieldA w).val ≤ 13)) ↔
      ∃ i, decode w = .ok i ∧ mnemonic i = r.1 := by
    intro r hr
    rw [opcodeMap_eq, List.mem_map] at hr
    obtain ⟨i, -, rfl⟩ := hr
    exact opcodeRow_iff w i
  refine ⟨hrow, ?_, ?_⟩
  · rintro ⟨e, he⟩ r hr hfit
    obtain ⟨i, hi, -⟩ := (hrow r hr).1 hfit
    simp [he] at hi
  · intro hnone
    cases hd : decode w with
    | error e => exact ⟨e, rfl⟩
    | ok i => exact absurd ((hrow _ (opcodeRow_mem i)).2 ⟨i, hd, rfl⟩) (hnone _ (opcodeRow_mem i))

/-! ### The big-endian encoding of a number -/

theorem bigEndian_append_singleton (bytes : List Byte) (b : Byte) :
    bigEndian (bytes ++ [b]) = bigEndian bytes * 256 + b.toNat := by
  simp [bigEndian]

/-- The `n` bytes of a number, most significant first, denote its residue modulo `256^n` (20_memory R52). -/
theorem bigEndian_bytes (n v : Nat) :
    bigEndian ((List.range n).map fun k => BitVec.ofNat 8 (v / 2 ^ (8 * (n - 1 - k)))) = v % 256 ^ n := by
  induction n generalizing v with
  | zero => simp [bigEndian, Nat.mod_one]
  | succ n ih =>
    have hhigh : ((List.range n).map fun k => BitVec.ofNat 8 (v / 2 ^ (8 * (n + 1 - 1 - k)))) =
        (List.range n).map fun k => BitVec.ofNat 8 (v / 256 / 2 ^ (8 * (n - 1 - k))) := by
      refine List.map_congr_left fun k hk => ?_
      have hk := List.mem_range.1 hk
      rw [Nat.div_div_eq_div_mul, show 256 = 2 ^ 8 by rfl, ← pow_add,
        show 8 + 8 * (n - 1 - k) = 8 * (n + 1 - 1 - k) by omega]
    calc bigEndian ((List.range (n + 1)).map fun k => BitVec.ofNat 8 (v / 2 ^ (8 * (n + 1 - 1 - k))))
      _ = v / 256 % 256 ^ n * 256 + v % 256 := by
        rw [List.range_succ, List.map_append, hhigh, List.map_singleton, bigEndian_append_singleton, ih (v / 256)]
        simp
      _ = v % 256 ^ (n + 1) := by rw [pow_succ', Nat.mod_mul, add_comm, mul_comm]

theorem bigEndian_bytes32 {v : Nat} (h : v < 2 ^ 256) : bigEndian (bytes32 v) = v := by
  rw [bytes32, bigEndian_bytes 32 v, Nat.mod_eq_of_lt (by omega)]

@[simp] theorem encode32_length (a : Felt) : (encode32 a).length = 32 := bytes32_length a.val

/-- Decoding undoes encoding (41_loadstore R144). -/
theorem decode32_encode32 (a : Felt) : decode32 (encode32 a) = .ok a := by
  have hv : bigEndian (encode32 a) = a.val := bigEndian_bytes32 (a.isLt.trans (by decide))
  rw [decode32, dif_pos (hv ▸ a.isLt)]
  exact congrArg Except.ok (Fin.ext hv)

/-! ### The host shorthands -/

theorem transactAll_bufWrite {n : Nat} (g : Fin n → Addr) (f : Fin n → Byte) (ks : List (Fin n)) (s : State) :
    transactAll (ks.map fun k => .bufWrite (g k) (f k)) s =
      .next (s.setBuf (ks.foldl (fun m k => m.write (g k).val (f k)) s.buf)) := by
  induction ks generalizing s with
  | nil => rfl
  | cons k ks ih => exact ih (s.setBuf (s.buf.write (g k).val (f k)))

theorem transactAll_bufRead {n : Nat} (g : Fin n → Addr) (ks : List (Fin n)) (s : State) :
    transactAll (ks.map fun k => .bufRead (g k)) s =
      .next { s with answers := s.answers ++ ks.map fun k => .byte (s.buf.read (g k).val) } := by
  induction ks generalizing s with
  | nil => simp [transactAll]
  | cons k ks ih =>
    refine (ih (s.reply (.byte (bufValue s (g k))))).trans ?_
    simp [bufValue, State.reply]

/-- Writing bytes one after another at rising addresses is the store of the bytes. -/
theorem foldl_write_finRange (n a : Nat) (f : Fin n → Byte) (m : Memory) :
    (List.finRange n).foldl (fun m k => m.write (a + k.val) (f k)) m = m.writeBytes a ((List.finRange n).map f) := by
  induction n generalizing a m with
  | zero => rfl
  | succ n ih =>
    have ih := ih (a + 1) (fun k => f k.succ) (m.write a (f 0))
    simp only [List.finRange_succ, List.foldl_cons, List.foldl_map, List.map_cons, List.map_map, Memory.writeBytes,
      Fin.val_zero, Nat.add_zero, Fin.val_succ, Function.comp_def, ← ih]
    congr 1
    funext m k
    congr 1
    omega

theorem map_finRange_val {α : Type} (n : Nat) (f : Nat → α) :
    (List.finRange n).map (fun k => f k.val) = (List.range n).map f := by
  rw [← List.map_coe_finRange_eq_range, List.map_map]
  rfl

/-- `BUFW32 [s], v` stores the 32 bytes of `v` (30_encoding R79). -/
theorem transactAll_bufW32 (slot : Slot) (v : Nat) (s : State) :
    transactAll (bufW32 slot v) s = .next (s.setBuf (s.buf.writeBytes (slotAddr slot) (bytes32 v))) := by
  rw [bufW32, transactAll_bufWrite, bytes32, ← map_finRange_val 32 fun k => BitVec.ofNat 8 (v / 2 ^ (8 * (31 - k))),
    ← foldl_write_finRange]
  rfl

/-- `BUFR32 [s]` answers the 32 bytes of the slot, lowest address first (30_encoding R79). -/
theorem transactAll_bufR32 (slot : Slot) (s : State) :
    transactAll (bufR32 slot) s =
      .next { s with answers := s.answers ++ (s.buf.readBytes (slotAddr slot) 32).map Answer.byte } := by
  rw [bufR32, transactAll_bufRead, Memory.readBytes, List.map_map, ← map_finRange_val]
  rfl

theorem slotAddr_add_le (slot : Slot) : slotAddr slot + 32 ≤ 1024 := by
  have := slot.isLt
  rw [slotAddr]
  omega

/-- A slot reads back the 32 bytes stored to it. -/
theorem readBytes_writeBytes_slot {m : Memory} (hm : m.wf = true) (slot : Slot) {bytes : List Byte}
    (hl : bytes.length = 32) : (m.writeBytes (slotAddr slot) bytes).readBytes (slotAddr slot) 32 = bytes := by
  have hslot := slotAddr_add_le slot
  have := Memory.readBytes_writeBytes bytes (hl ▸ hslot) hm
  rwa [hl] at this

/-- Settles O15. -/
theorem hostWritesAndReadsASlot : Obligations.HostWritesAndReadsASlot := by
  intro slot v s hw hv
  have hslot := slotAddr_add_le slot
  refine ⟨⟨_, transactAll_bufW32 slot v s, ?_, fun a ha => ?_⟩, transactAll_bufR32 slot s⟩
  · rw [slotNumber, readBytes_writeBytes_slot hw slot (bytes32_length v), bigEndian_bytes32 hv]
  · rw [Memory.read_writeBytes _ _ (by rwa [bytes32_length]) hw, bytes32_length, slotAddr, if_neg (by omega)]

/-! ### The pseudo-commands -/

/-- Issuing the word of a well-formed command runs the command (30_encoding R75). -/
theorem issue_encode {i : Instr} (s : State) (hw : i.wellFormed = true) : issue (encode i) s = exec i s :=
  issue_of_decode s (decode_encode i hw)

/-- A command that completes lets the expansion go on from the state it leaves (30_encoding R80). -/
theorem runExpansion_of_ok {i : Instr} {rest : List Instr} {s u : State} (hw : i.wellFormed = true)
    (h : effect i s = .ok u) : runExpansion (i :: rest) s = runExpansion rest u.complete := by
  rw [runExpansion, issue_encode s hw, exec_of_effect_ok h]
  rfl

/-- A command that raises an error stops the expansion (30_encoding R80). -/
theorem runExpansion_of_error {i : Instr} {rest : List Instr} {s : State} {k : ErrorKind} (hw : i.wellFormed = true)
    (h : effect i s = .error k) : runExpansion (i :: rest) s = .next (s.raise k (encode i)) := by
  rw [runExpansion, issue_encode s hw, exec_of_effect_error h]
  simp

theorem runExpansion_fdbl (ed es : EReg) (s : State) :
    runExpansion (expand (.fdbl ed es)) s = .next (s.setE ed (fadd (s.getE es) (s.getE es))).complete :=
  runExpansion_of_ok rfl rfl

/-- `PADDD` does what `PDBL` does: doubling is adding a point to itself (42_curve R161). -/
theorem runExpansion_paddd (pd ps : PReg) (s : State) :
    runExpansion (expand (.paddd pd ps)) s = issue (encode (.pdbl pd ps)) s := by
  calc runExpansion [.padd pd ps ps] s
    _ = .next (s.setPt pd (padd s.params (s.getPt ps) (s.getPt ps))).complete := runExpansion_of_ok rfl rfl
    _ = exec (.pdbl pd ps) s := by rw [← pdbl_eq_padd_self]; rfl
    _ = issue (encode (.pdbl pd ps)) s := (issue_encode s rfl).symm

/-- `FDIV` leaves the inverse in the scratch register and the quotient in the destination (30_encoding R80). -/
theorem runExpansion_fdiv {ed es1 es2 et : EReg} {s : State} (ht : et ≠ es1) (h : (s.getE es2).val ≠ 0) :
    runExpansion (expand (.fdiv ed es1 es2 et)) s =
      .next ((s.setE et (finv (s.getE es2))).complete.setE ed (fmul (s.getE es1) (finv (s.getE es2)))).complete := by
  have hinv : effect (.finv et es2) s = .ok (s.setE et (finv (s.getE es2))) := if_neg h
  rw [expand, runExpansion_of_ok rfl hinv, runExpansion_of_ok rfl rfl]
  simp [runExpansion, ht.symm]

/-- `PSUB` adds the negation it leaves in the scratch register (30_encoding R80). -/
theorem runExpansion_psub {pd ps1 ps2 pt : PReg} (s : State) (ht : pt ≠ ps1) :
    runExpansion (expand (.psub pd ps1 ps2 pt)) s =
      .next ((s.setPt pt (pneg (s.getPt ps2))).complete.setPt pd
        (padd s.params (s.getPt ps1) (pneg (s.getPt ps2)))).complete := by
  rw [expand, runExpansion_of_ok rfl rfl, runExpansion_of_ok rfl rfl]
  simp [runExpansion, ht.symm]

/-- The quotient times the divisor is the dividend (40_field R106). -/
theorem fmul_fmul_finv (a : Felt) {b : Felt} (h : b.val ≠ 0) : fmul (fmul a (finv b)) b = a := by
  have : Fact (Nat.Prime P) := ⟨P_prime⟩
  have hb : toZ b ≠ 0 := fun hz => h (toZ_eq_zero.1 hz)
  rw [← toZ_inj, toZ_fmul, toZ_fmul, toZ_finv, inv_mul_cancel_right₀ hb]

/-- Settles O58. -/
theorem pseudoCommands : Obligations.PseudoCommands := by
  refine ⟨fun ed es s => ?_, fun ed es1 es2 et s ht h => ?_, fun ed es1 es2 et s h => ?_, runExpansion_paddd,
    fun pd ps1 ps2 pt s ht => ?_⟩
  · refine ⟨_, _, runExpansion_fdbl ed es s, setsOnlyE_complete s ed _, ?_⟩
    rw [fadd, reduceP, two_mul]
  · refine ⟨_, runExpansion_fdiv ht h, ?_, rfl, fun j hd ht => by simp [hd, ht]⟩
    simpa using fmul_fmul_finv _ h
  · have hinv : effect (.finv et es2) s = .error .divisionByZero := if_pos h
    exact ⟨_, runExpansion_of_error rfl hinv, onlyRaises_raise _ _ _⟩
  · exact ⟨_, runExpansion_psub s ht, by simp, rfl⟩

/-! ### Storing and loading a point -/

theorem wf_storeSlot {m : Memory} (hm : m.wf = true) (slot : Slot) (v : Felt) : (storeSlot m slot v).wf = true :=
  Memory.wf_writeBytes _ (by rw [encode32_length]; exact slotAddr_add_le slot) hm

/-- A slot holds the element last stored to it (41_loadstore R144). -/
theorem loadSlot_storeSlot_same {m : Memory} (hm : m.wf = true) (slot : Slot) (v : Felt) :
    loadSlot (storeSlot m slot v) slot = .ok v := by
  rw [loadSlot, storeSlot, readBytes_writeBytes_slot hm slot (encode32_length v), decode32_encode32]

/-- Slots do not overlap (20_memory R51). -/
theorem loadSlot_storeSlot_other {m : Memory} (hm : m.wf = true) {slot other : Slot} (h : slot ≠ other) (v : Felt) :
    loadSlot (storeSlot m slot v) other = loadSlot m other := by
  have hslot := slotAddr_add_le slot
  have hne : slot.val ≠ other.val := fun he => h (Fin.ext he)
  have hbytes : (storeSlot m slot v).readBytes (slotAddr other) 32 = m.readBytes (slotAddr other) 32 := by
    refine List.map_congr_left fun k hk => ?_
    have hk := List.mem_range.1 hk
    rw [storeSlot, Memory.read_writeBytes _ _ (by rwa [encode32_length]) hm, encode32_length, slotAddr, slotAddr,
      if_neg (by omega)]
  rw [loadSlot, loadSlot, hbytes]

/-- `STP` stores the coordinates of an affine point to two slots (30_encoding R80). -/
theorem runExpansion_stp {ps : PReg} {x y : Felt} {s : State} (slot : Fin 31) {et1 et2 : EReg} (ht : et1 ≠ et2)
    (hp : s.getPt ps = .affine x y) :
    ∃ t, runExpansion (expand (.stp ps slot et1 et2)) s = .next t ∧ t.last = none ∧ t.params = s.params ∧
      t.buf = storeSlot (storeSlot s.buf slot.castSucc x) slot.succ y := by
  have hx : effect (.pgetx et1 ps) s = .ok (s.setE et1 x) := by simp [effect, hp, pointX, Except.map]
  have hy : effect (.pgety et2 ps) (s.setE et1 x).complete = .ok ((s.setE et1 x).complete.setE et2 y) := by
    simp [effect, hp, pointY, Except.map]
  have hrun : runExpansion (expand (.stp ps slot et1 et2)) s =
      runExpansion [.ste et1 slot.castSucc, .ste et2 slot.succ] ((s.setE et1 x).complete.setE et2 y).complete :=
    (runExpansion_of_ok rfl hx).trans (runExpansion_of_ok rfl hy)
  rw [hrun, runExpansion_of_ok rfl rfl, runExpansion_of_ok rfl rfl, runExpansion]
  exact ⟨_, rfl, rfl, rfl, by simp [ht]⟩

/-- `LDP` makes a point of the curve from two slots that hold its coordinates (30_encoding R80). -/
theorem runExpansion_ldp (pd : PReg) {x y : Felt} {s : State} {slot : Fin 31} {et1 et2 : EReg} (ht : et1 ≠ et2)
    (hx : loadSlot s.buf slot.castSucc = .ok x) (hy : loadSlot s.buf slot.succ = .ok y)
    (hon : onCurve s.params x y = true) :
    ∃ t, runExpansion (expand (.ldp pd slot et1 et2)) s = .next t ∧ t.last = none ∧ t.getPt pd = .affine x y := by
  have h1 : effect (.lde et1 slot.castSucc) s = .ok (s.setE et1 x) := by simp [effect, hx, Except.map]
  have h2 : effect (.lde et2 slot.succ) (s.setE et1 x).complete = .ok ((s.setE et1 x).complete.setE et2 y) := by
    simp [effect, hy, Except.map]
  have h3 : effect (.pset pd et1 et2) ((s.setE et1 x).complete.setE et2 y).complete =
      .ok (((s.setE et1 x).complete.setE et2 y).complete.setPt pd (.affine x y)) := by
    simp [effect, ht, checkedPoint, hon, Except.map]
  exact ⟨_, (runExpansion_of_ok rfl h1).trans ((runExpansion_of_ok rfl h2).trans (runExpansion_of_ok rfl h3)),
    rfl, by simp⟩

/-- Settles O59. -/
theorem storePointThenLoadPoint : Obligations.StorePointThenLoadPoint := by
  intro pd ps slot et1 et2 et3 et4 s hw ht12 ht34 hne hv
  cases hp : s.getPt ps with
  | identity => exact absurd hp hne
  | affine x y =>
    obtain ⟨t, hst, hlast, hparams, hbuf⟩ := runExpansion_stp slot ht12 hp
    have hslots : slot.succ ≠ slot.castSucc := (Fin.castSucc_lt_succ).ne'
    have hwx := wf_storeSlot hw slot.castSucc x
    have hx : loadSlot t.buf slot.castSucc = .ok x := by
      rw [hbuf, loadSlot_storeSlot_other hwx hslots, loadSlot_storeSlot_same hw]
    have hy : loadSlot t.buf slot.succ = .ok y := by rw [hbuf, loadSlot_storeSlot_same hwx]
    have hon : onCurve t.params x y = true := by
      rw [hp] at hv
      rw [hparams]
      exact hv
    obtain ⟨u, hld, hlast', hpt⟩ := runExpansion_ldp pd ht34 hx hy hon
    exact ⟨t, u, hst, hlast, hld, hlast', hpt⟩

end Sys2Proof.Machine

/-!
PROOFS of the statements about the field (spec/40_field.md): the value of each field function, the laws of field
arithmetic, the two reference datapaths, and what the field commands do.
-/

namespace Sys2Proof.Machine

/-! ### The values of the field functions -/

theorem val_reduceP (v : Nat) : (reduceP v).val = v % P := rfl

theorem val_fadd (a b : Felt) : (fadd a b).val = (a.val + b.val) % P := rfl

theorem val_fneg (a : Felt) : (fneg a).val = (P - a.val) % P := rfl

theorem val_fmul (a b : Felt) : (fmul a b).val = a.val * b.val % P := rfl

theorem val_fsqr (a : Felt) : (fsqr a).val = a.val * a.val % P := rfl

/-- The `P` added before subtracting leaves the residue of the integer difference (40_field R101). -/
theorem val_fsub (a b : Felt) : ((fsub a b).val : Int) = ((a.val : Int) - (b.val : Int)) % (P : Int) := by
  have hb : b.val ≤ a.val + P := by omega
  calc ((fsub a b).val : Int)
    _ = ((a.val : Int) - b.val + P) % P := by
      rw [fsub, val_reduceP, Int.natCast_mod, Nat.cast_sub hb, Nat.cast_add, sub_add_eq_add_sub]
    _ = ((a.val : Int) - b.val) % P := Int.add_emod_right _ _

theorem val_fpow (a : Felt) (k : Nat) : (fpow a k).val = a.val ^ k % P := by
  rw [fpow, val_reduceP, powMod_eq, Nat.mod_mod]

/-- Settles O22. -/
theorem fieldFunctionsByCases : Obligations.FieldFunctionsByCases := by
  intro a b
  have ha := a.isLt
  have hb := b.isLt
  refine ⟨fun h => ?_, fun h => ?_, fun h => ?_, fun h => ?_, fun h => ?_, fun h => ?_, val_fmul a b, rfl, val_fsqr a⟩
  · rw [val_fadd, Nat.mod_eq_of_lt h]
  · rw [val_fadd, Nat.mod_eq_sub_mod h, Nat.mod_eq_of_lt (by omega)]
  · rw [fsub, val_reduceP, Nat.sub_add_comm h, Nat.add_mod_right, Nat.mod_eq_of_lt (by omega)]
  · rw [fsub, val_reduceP, Nat.mod_eq_of_lt (by omega)]
    omega
  · rw [val_fneg, h, Nat.sub_zero, Nat.mod_self]
  · rw [val_fneg, Nat.mod_eq_of_lt (by omega)]

/-! ### The laws of field arithmetic -/

/-- A product is 1 modulo `P` exactly when the second factor is the inverse of the first (40_field R106). -/
theorem mul_mod_P_eq_one_iff {a b : Felt} (ha : a.val ≠ 0) : a.val * b.val % P = 1 ↔ b = finv a := by
  have : Fact (Nat.Prime P) := ⟨P_prime⟩
  have hz : toZ a ≠ 0 := fun h => ha (toZ_eq_zero.1 h)
  calc a.val * b.val % P = 1
    _ ↔ fmul a b = reduceP 1 := (Fin.ext_iff (a := fmul a b) (b := reduceP 1)).symm
    _ ↔ toZ a * toZ b = 1 := by rw [← toZ_inj, toZ_fmul, toZ_reduceP, Nat.cast_one]
    _ ↔ b = finv a := by rw [← toZ_inj, toZ_finv, mul_comm, mul_eq_one_iff_eq_inv₀ hz]

theorem mul_val_finv_mod_P {a : Felt} (ha : a.val ≠ 0) : a.val * (finv a).val % P = 1 :=
  (mul_mod_P_eq_one_iff ha).2 rfl

theorem val_finv_ne_zero {a : Felt} (ha : a.val ≠ 0) : (finv a).val ≠ 0 := by
  intro h
  simpa [h] using mul_val_finv_mod_P ha

/-- Settles O23: each law is one of the integers modulo `P`. -/
theorem fieldLaws : Obligations.FieldLaws := by
  intro a b c
  refine ⟨val_fadd a b, val_fsub a b, val_fneg a, val_fmul a b, ?_, ?_, ?_, ?_, ?_, ?_, ?_, ?_, ?_,
    fun ha => Fin.ext (mul_val_finv_mod_P ha)⟩
  all_goals
    rw [← toZ_inj]
    simp only [toZ_fadd, toZ_fmul, toZ_fneg, toZ_fsub, toZ_reduceP]
    push_cast
    ring

/-! ### The reference datapath of exponentiation -/

theorem fpow_zero (a : Felt) : fpow a 0 = reduceP 1 := by
  rw [← toZ_inj]
  simp

theorem fpow_succ (a : Felt) (k : Nat) : fpow a (k + 1) = fmul (fpow a k) a := by
  rw [← toZ_inj]
  simp [pow_succ]

theorem fpow_reduceP_zero {k : Nat} (hk : 1 ≤ k) : fpow (reduceP 0) k = reduceP 0 := by
  rw [← toZ_inj, toZ_fpow, toZ_reduceP, Nat.cast_zero, zero_pow (by omega)]

theorem fsqr_fpow (a : Felt) (k : Nat) : fsqr (fpow a k) = fpow a (2 * k) := by
  rw [← toZ_inj, toZ_fsqr, toZ_fpow, toZ_fpow, ← pow_mul, mul_comm]

/-- From the power of the bits already read, the ladder reaches the power of the whole exponent: an iteration doubles
the exponent and adds the next bit (40_field R107). -/
theorem fpowLadder_eq (a : Felt) (k n : Nat) : fpowLadder a k n (fpow a (k / 2 ^ n)) = fpow a k := by
  induction n with
  | zero => simp [fpowLadder]
  | succ n ih =>
    have hbit : k / 2 ^ (n + 1) = k / 2 ^ n / 2 := by rw [pow_succ, Nat.div_div_eq_div_mul]
    rw [fpowLadder, fsqr_fpow, hbit, ← fpow_succ]
    split
    next hodd => rwa [show 2 * (k / 2 ^ n / 2) + 1 = k / 2 ^ n by omega]
    next heven => rwa [show 2 * (k / 2 ^ n / 2) = k / 2 ^ n by omega]

theorem fpowReference_eq (a : Felt) {k : Nat} (hk : k < 2 ^ 252) : fpowReference a k = fpow a k := by
  rw [fpowReference, ← fpow_zero a, ← Nat.div_eq_of_lt hk, fpowLadder_eq]

/-- Settles O20. -/
theorem powerLadderIsExact : Obligations.PowerLadderIsExact :=
  fun a k => ⟨val_fpow a k, fpow_zero a, fpow_succ a k, fpow_reduceP_zero, fpowReference_eq a⟩

/-! ### The reference datapath of the reducer -/

section
variable {A B p v : Nat}

/-- Barrett's estimate of `v / p`, from `v / A` and the constant `A * B / p`, is not above the quotient: each of its three
divisions rounds down. -/
theorem barrett_estimate_mul_le (hA : 0 < A) (hB : 0 < B) : v / A * (A * B / p) / B * p ≤ v := by
  have hq1 := Nat.div_mul_le_self v A
  have hmu := Nat.div_mul_le_self (A * B) p
  have hq3 := Nat.div_mul_le_self (v / A * (A * B / p)) B
  generalize v / A = q1 at *
  generalize A * B / p = mu at *
  generalize q1 * mu / B = q3 at *
  refine Nat.le_of_mul_le_mul_right ?_ (Nat.mul_pos hA hB)
  calc q3 * p * (A * B)
    _ = q3 * B * (p * A) := by ring
    _ ≤ q1 * mu * (p * A) := Nat.mul_le_mul_right _ hq3
    _ = q1 * A * (mu * p) := by ring
    _ ≤ v * (A * B) := Nat.mul_le_mul hq1 hmu

/-- Barrett's estimate is less than 3 below the quotient: each of its three divisions loses less than 1, and the factors
`v / A` and `A * B / p` are at most `B`. -/
theorem lt_barrett_estimate_add_three_mul (hA : 0 < A) (hp : A ≤ p) (hv : v < A * B) :
    v < (v / A * (A * B / p) / B + 3) * p := by
  have hB : 0 < B := Nat.pos_of_mul_pos_left (Nat.zero_lt_of_lt hv)
  have hq1_lt : v / A < B := Nat.div_lt_of_lt_mul hv
  have hmu_le : A * B / p ≤ B := Nat.div_le_of_le_mul (Nat.mul_le_mul_right B hp)
  have hq1 := Nat.lt_mul_div_succ v hA
  have hmu := Nat.lt_mul_div_succ (A * B) (hA.trans_le hp)
  have hq3 := Nat.lt_mul_div_succ (v / A * (A * B / p)) hB
  generalize v / A = q1 at *
  generalize A * B / p = mu at *
  generalize q1 * mu / B = q3 at *
  refine Nat.lt_of_mul_lt_mul_right (a := A * B) ?_
  calc v * (A * B)
    _ < A * (q1 + 1) * (p * (mu + 1)) := Nat.mul_lt_mul'' hq1 hmu
    _ = (q1 * mu + 1 + q1 + mu) * (p * A) := by ring
    _ ≤ (B * (q3 + 1) + B + B) * (p * A) := Nat.mul_le_mul_right _ (by omega)
    _ = (q3 + 3) * p * (A * B) := by ring

end

theorem two_pow_251_le_P : 2 ^ 251 ≤ P := by decide

theorem barrettMu_eq : barrettMu = 2 ^ 251 * 2 ^ 253 / P := by rw [barrettMu, ← pow_add]

/-- The quotient the reference reducer estimates, times `P`, is at most the value, and what is left is below `3 * P`
(40_field R104). -/
theorem barrett_remainder {v : Nat} (hv : v < 2 ^ 504) :
    v / 2 ^ 251 * barrettMu / 2 ^ 253 * P ≤ v ∧ v - v / 2 ^ 251 * barrettMu / 2 ^ 253 * P < 3 * P := by
  rw [show 504 = 251 + 253 by rfl, pow_add] at hv
  have hle := barrett_estimate_mul_le (A := 2 ^ 251) (B := 2 ^ 253) (p := P) (v := v) (by positivity) (by positivity)
  have hlt := lt_barrett_estimate_add_three_mul (by positivity) two_pow_251_le_P hv
  rw [← barrettMu_eq] at hle hlt
  rw [add_mul] at hlt
  exact ⟨hle, by omega⟩

/-- A conditional subtraction of `P` keeps the residue. -/
theorem ite_sub_P_mod_P (r : Nat) : (if P ≤ r then r - P else r) % P = r % P := by
  split
  next h => exact (Nat.mod_eq_sub_mod h).symm
  next => rfl

/-- Below `3 * P`, two conditional subtractions of `P` reach the residue (40_field R104). -/
theorem ite_sub_P_twice_eq_mod {r r' : Nat} (h : r < 3 * P) (hr' : r' = if P ≤ r then r - P else r) :
    (if P ≤ r' then r' - P else r') = r % P := by
  have hr'_lt : r' < 2 * P := by rw [hr']; split <;> omega
  have hlt : (if P ≤ r' then r' - P else r') < P := by split <;> omega
  calc (if P ≤ r' then r' - P else r')
    _ = r' % P := by rw [← ite_sub_P_mod_P r', Nat.mod_eq_of_lt hlt]
    _ = r % P := by rw [hr', ite_sub_P_mod_P]

theorem barrett_eq {v : Nat} (hv : v < 2 ^ 504) : barrett v = v % P := by
  obtain ⟨hle, hlt⟩ := barrett_remainder hv
  calc barrett v
    _ = (v - v / 2 ^ 251 * barrettMu / 2 ^ 253 * P) % P := ite_sub_P_twice_eq_mod hlt rfl
    _ = v % P := by rw [mul_comm] at hle ⊢; exact Nat.sub_mul_mod hle

/-- Settles O24. -/
theorem barrettReducerIsExact : Obligations.BarrettReducerIsExact :=
  ⟨by decide +kernel, fun v hv => ⟨val_reduceP v, barrett_eq hv, barrett_remainder hv⟩⟩

/-! ### The field commands -/

theorem val_immValue (imm : Imm12) : (immValue imm).val = imm.val :=
  Nat.mod_eq_of_lt (imm.isLt.trans (by decide))

/-- A command whose effect is one write of an E register answers a state with that write and nothing else changed; `Q` is
what its statement says of the written value. -/
theorem exec_setsOnlyE {i : Instr} {s : State} {rd : EReg} {v : Felt} {Q : Felt → Prop}
    (h : effect i s = .ok (s.setE rd v)) (hv : Q v) : ∃ t v, exec i s = .next t ∧ SetsOnlyE s t rd v ∧ Q v :=
  ⟨_, v, exec_of_effect_ok h, setsOnlyE_complete s rd v, hv⟩

/-- Settles O16. -/
theorem loadConstantAndCopy : Obligations.LoadConstantAndCopy := by
  constructor
  · intro rd imm s
    exact ⟨hasWord_of_encode (Laws.Encoding.fli rd imm) rfl rfl, exec_setsOnlyE rfl (val_immValue imm)⟩
  · intro rd rs s
    exact ⟨hasWord_of_encode (Laws.Encoding.fmov rd rs) rfl rfl, _, exec_of_effect_ok rfl, setsOnlyE_complete _ _ _⟩

/-- Settles O17. -/
theorem fieldRingCommands : Obligations.FieldRingCommands := by
  constructor
  · intro rd rs1 rs2 s
    exact ⟨
      ⟨hasWord_of_encode (Laws.Encoding.fadd rd rs1 rs2) rfl rfl, exec_setsOnlyE rfl (val_fadd _ _)⟩,
      ⟨hasWord_of_encode (Laws.Encoding.fsub rd rs1 rs2) rfl rfl, exec_setsOnlyE rfl (val_fsub _ _)⟩,
      ⟨hasWord_of_encode (Laws.Encoding.fmul rd rs1 rs2) rfl rfl, exec_setsOnlyE rfl (val_fmul _ _)⟩⟩
  · intro rd rs s
    exact ⟨
      ⟨hasWord_of_encode (Laws.Encoding.fneg rd rs) rfl rfl, exec_setsOnlyE rfl (val_fneg _)⟩,
      ⟨hasWord_of_encode (Laws.Encoding.fsqr rd rs) rfl rfl, exec_setsOnlyE rfl (val_fsqr _)⟩⟩

/-- Settles O18: of 0 the effect is the error, of any other element it is the write of the inverse. -/
theorem fieldInverse : Obligations.FieldInverse := by
  intro rd rs s
  refine ⟨hasWord_of_encode (Laws.Encoding.finv rd rs) rfl rfl, fun h => ?_, fun h => ?_⟩
  · have heffect : effect (.finv rd rs) s = .error .divisionByZero := if_pos h
    exact ⟨_, exec_of_effect_error heffect, onlyRaises_raise _ _ _⟩
  · have heffect : effect (.finv rd rs) s = .ok (s.setE rd (finv (s.getE rs))) := if_neg h
    exact exec_setsOnlyE heffect
      ⟨val_finv_ne_zero h, mul_val_finv_mod_P h, fun _ => (mul_mod_P_eq_one_iff h).1⟩

/-- Settles O19. -/
theorem fieldPower : Obligations.FieldPower := by
  intro rd rs1 rs2 s
  exact ⟨hasWord_of_encode (Laws.Encoding.fpow rd rs1 rs2) rfl rfl, exec_setsOnlyE rfl (val_fpow _ _)⟩

/-- Settles O21. -/
theorem fieldEquality : Obligations.FieldEquality := by
  intro rs1 rs2 s
  exact ⟨hasWord_of_encode (Laws.Encoding.feq rs1 rs2) rfl rfl, _, _, exec_of_effect_ok rfl,
    setsOnlyFlag_complete _ _, decide_eq_true_iff.trans Fin.ext_iff⟩

end Sys2Proof.Machine

/-!
PROOFS of the statements about element load and store (spec/41_loadstore.md): what number 32 bytes encode, the round trip
of the element encoding both ways, and what `LDE` and `STE` do.
-/

namespace Sys2Proof.Machine

/-! ### The number a list of bytes denotes -/

/-- Each byte weighs 256 to the number of bytes after it (20_memory R52). -/
theorem bigEndian_eq_sum (bytes : List Byte) :
    bigEndian bytes =
      ∑ k ∈ Finset.range bytes.length, (bytes.getD k 0#8).toNat * 256 ^ (bytes.length - 1 - k) := by
  induction bytes using List.reverseRecOn with
  | nil => rfl
  | append_singleton bytes b ih =>
    have hhigh : ∀ k ∈ Finset.range bytes.length,
        ((bytes ++ [b]).getD k 0#8).toNat * 256 ^ (bytes.length - k) =
          (bytes.getD k 0#8).toNat * 256 ^ (bytes.length - 1 - k) * 256 := by
      intro k hk
      have hk := Finset.mem_range.1 hk
      rw [List.getD_append _ _ _ _ hk, mul_assoc, ← pow_succ, show bytes.length - 1 - k + 1 = bytes.length - k by omega]
    rw [bigEndian_append_singleton, ih, List.length_append, List.length_singleton, Nat.add_sub_cancel,
      Finset.sum_range_succ, Finset.sum_congr rfl hhigh, Finset.sum_mul]
    simp

/-- The bytes are the digits of their number in base 256, read from the last one. -/
theorem bigEndian_eq_ofDigits (bytes : List Byte) :
    bigEndian bytes = Nat.ofDigits 256 (bytes.reverse.map BitVec.toNat) := by
  induction bytes using List.reverseRecOn with
  | nil => rfl
  | append_singleton bytes b ih =>
    rw [bigEndian_append_singleton, ih, List.reverse_concat, List.map_cons, Nat.ofDigits_cons]
    omega

theorem eq_of_bigEndian_eq {xs ys : List Byte} (hl : xs.length = ys.length)
    (h : bigEndian xs = bigEndian ys) : xs = ys := by
  have hdigit : ∀ bytes : List Byte, ∀ d ∈ bytes.reverse.map BitVec.toNat, d < 256 :=
    fun _ => List.forall_mem_map.2 fun b _ => b.isLt
  rw [bigEndian_eq_ofDigits, bigEndian_eq_ofDigits] at h
  have hdigits := Nat.ofDigits_inj_of_len_eq (by decide) (by simpa using hl) (hdigit xs) (hdigit ys) h
  exact List.reverse_injective (List.map_injective_iff.2 (fun _ _ => BitVec.eq_of_toNat_eq) hdigits)

/-! ### The encoding of an element -/

/-- Decoding accepts the numbers below `P` (41_loadstore R140). -/
theorem decode32_of_lt {bytes : List Byte} (h : bigEndian bytes < P) : decode32 bytes = .ok ⟨bigEndian bytes, h⟩ :=
  dif_pos h

/-- Decoding refuses the numbers from `P` on (41_loadstore R140). -/
theorem decode32_of_ge {bytes : List Byte} (h : P ≤ bigEndian bytes) : decode32 bytes = .error .invalidEncoding :=
  dif_neg h.not_gt

theorem encode32_getD (a : Felt) {k : Nat} (hk : k < 32) (d : Byte) :
    (encode32 a).getD k d = BitVec.ofNat 8 (a.val / 2 ^ (8 * (31 - k))) := by
  rw [encode32, bytes32, List.getD_eq_getElem _ _ (by simpa using hk), List.getElem_map, List.getElem_range]

/-- The first byte holds the bits of an element from bit 248 up, and `P` is below `9 * 2^248` (41_loadstore R141). -/
theorem encode32_head_le (a : Felt) : ((encode32 a).getD 0 0#8).toNat ≤ 8 := by
  have hP : P ≤ 2 ^ 248 * 9 := by decide
  have hhead : a.val / 2 ^ 248 < 9 := Nat.div_lt_of_lt_mul (a.isLt.trans_le hP)
  rw [encode32_getD a (by decide), BitVec.toNat_ofNat]
  exact (Nat.mod_le _ _).trans (Nat.lt_succ_iff.1 hhead)

/-- Encoding undoes decoding: 32 bytes are determined by their number (41_loadstore R144). -/
theorem encode32_of_decode32 {bytes : List Byte} {a : Felt} (hl : bytes.length = 32) (h : decode32 bytes = .ok a) :
    encode32 a = bytes := by
  have hdecode : a.val = bigEndian (encode32 a) := decode32_ok (decode32_encode32 a)
  exact eq_of_bigEndian_eq ((encode32_length a).trans hl.symm) (hdecode.symm.trans (decode32_ok h))

/-- Settles O14. -/
theorem elementEncodingIsBijective : Obligations.ElementEncodingIsBijective := by
  refine ⟨fun bytes hl v hv => ?_, fun a => ⟨encode32_length a, fun k hk => encode32_getD a hk _, encode32_head_le a⟩,
    decode32_encode32, fun bytes a => encode32_of_decode32⟩
  obtain rfl : v = bigEndian bytes := by rw [hv, bigEndian_eq_sum, hl]
  exact ⟨decode32_of_lt, decode32_of_ge⟩

/-! ### The element load -/

theorem slotNumber_eq_sum (m : Memory) (slot : Slot) :
    slotNumber m slot = ∑ k ∈ Finset.range 32, (m.read (32 * slot.val + k)).toNat * 256 ^ (31 - k) := by
  rw [slotNumber, bigEndian_eq_sum]
  simp only [Memory.readBytes, List.length_map, List.length_range]
  refine Finset.sum_congr rfl fun k hk => ?_
  rw [List.getD_eq_getElem _ _ (by simpa using hk), List.getElem_map, List.getElem_range, slotAddr]

/-- Loading a slot that holds an element writes the element to the register (41_loadstore R142). -/
theorem exec_lde_of_ok {rd : EReg} {slot : Slot} {s : State} {v : Felt} (h : loadSlot s.buf slot = .ok v) :
    ∃ t, exec (.lde rd slot) s = .next t ∧ SetsOnlyE s t rd v := by
  have heffect : effect (.lde rd slot) s = .ok (s.setE rd v) := map_eq_ok.2 ⟨v, h, rfl⟩
  exact ⟨_, exec_of_effect_ok heffect, setsOnlyE_complete s rd v⟩

/-- Loading a slot that holds no element enters the error of its decoding (41_loadstore R142). -/
theorem exec_lde_of_error {rd : EReg} {slot : Slot} {s : State} {k : ErrorKind} (h : loadSlot s.buf slot = .error k) :
    ∃ t, exec (.lde rd slot) s = .next t ∧ OnlyRaises s t k (encode (.lde rd slot)) := by
  have heffect : effect (.lde rd slot) s = .error k := map_eq_error.2 h
  exact ⟨_, exec_of_effect_error heffect, onlyRaises_raise s k _⟩

/-- Settles O12: the load decodes the number of the slot. -/
theorem loadElement : Obligations.LoadElement := by
  intro rd slot s v hv
  obtain rfl : v = slotNumber s.buf slot := by rw [hv, slotNumber_eq_sum]
  exact ⟨hasWord_of_encode (Laws.Encoding.lde rd slot) rfl rfl,
    fun h => exec_lde_of_ok (decode32_of_lt h), fun h => exec_lde_of_error (decode32_of_ge h)⟩

/-! ### The element store -/

/-- What a byte reads after a store to a slot (41_loadstore R143). -/
theorem read_storeSlot {m : Memory} (hm : m.wf = true) (slot : Slot) (v : Felt) (a : Nat) :
    (storeSlot m slot v).read a =
      if slotAddr slot ≤ a ∧ a < slotAddr slot + 32 then (encode32 v).getD (a - slotAddr slot) 0 else m.read a := by
  rw [storeSlot, Memory.read_writeBytes _ _ (by simpa using slotAddr_add_le slot) hm, encode32_length]

theorem read_storeSlot_inside {m : Memory} (hm : m.wf = true) (slot : Slot) (v : Felt) {k : Nat} (hk : k < 32) :
    (storeSlot m slot v).read (slotAddr slot + k) = BitVec.ofNat 8 (v.val / 2 ^ (8 * (31 - k))) := by
  rw [read_storeSlot hm, if_pos (by omega), Nat.add_sub_cancel_left, encode32_getD v hk]

theorem read_storeSlot_outside {m : Memory} (hm : m.wf = true) {slot : Slot} (v : Felt) {a : Nat}
    (ha : a < slotAddr slot ∨ slotAddr slot + 32 ≤ a) : (storeSlot m slot v).read a = m.read a := by
  rw [read_storeSlot hm, if_neg (by omega)]

/-- A command whose effect is one store completes. -/
theorem completes_setBuf_complete (s : State) (m : Memory) : Completes s (s.setBuf m).complete := by
  constructor <;> simp

/-- Settles O13: from the slot just stored, the load decodes the encoding of the value. -/
theorem storeElement : Obligations.StoreElement := by
  intro rs slot s hw
  have hexec : exec (.ste rs slot) s = .next (s.setBuf (storeSlot s.buf slot (s.getE rs))).complete :=
    exec_of_effect_ok rfl
  refine ⟨hasWord_of_encode (Laws.Encoding.ste rs slot) rfl rfl, rfl, _, hexec, fun k hk => ?_, fun a ha => ?_,
    fun _ => by simp, fun _ => by simp, by simp, completes_setBuf_complete s _, fun rd => exec_lde_of_ok ?_⟩
  all_goals rw [State.complete_buf, State.setBuf_buf]
  · exact read_storeSlot_inside hw slot _ hk
  · exact read_storeSlot_outside hw _ ha
  · exact loadSlot_storeSlot_same hw slot _

end Sys2Proof.Machine

/-!
PROOFS of the statements about the curve (spec/42_curve.md): the curve equation over the integers, the cases of the
point adder and the point doubler, the group laws, the scalar multiplier and its reference datapath, and what the curve
commands do.
-/

namespace Sys2Proof.Machine

/-! ### Membership and equality -/

/-- The membership test is the curve equation over the integers modulo `P` (42_curve R150). -/
theorem onCurve_iff_mod (p : Params) (x y : Felt) :
    onCurve p x y = true ↔ y.val ^ 2 % P = (x.val ^ 3 + p.alpha.val * x.val + p.beta.val) % P := by
  rw [← ZMod.natCast_eq_natCast_iff', onCurve, decide_eq_true_eq, ← toZ_inj]
  push_cast
  simp only [toZ_fsqr, toZ_fadd, toZ_fmul, ← pow_succ]
  rfl

theorem flagIsIdentity_iff (a : Point) : flagIsIdentity a = true ↔ a = .identity := by
  cases a <;> simp [flagIsIdentity]

/-- The equality test compares the tags and both coordinates (42_curve R152). -/
theorem peq_iff (a b : Point) : peq a b = true ↔ a = b := by
  cases a <;> cases b <;> simp [peq]

/-! ### The cases of the point doubler and the point adder -/

section
variable (p : Params)

theorem pdbl_of_y_eq_zero (x : Felt) {y : Felt} (h : y.val = 0) : pdbl p (.affine x y) = .identity := if_pos h

theorem pdbl_of_y_ne_zero (x : Felt) {y : Felt} (h : y.val ≠ 0) :
    pdbl p (.affine x y) = lineThird (tangentSlope p x y) x y x := if_neg h

/-- Points with equal x-coordinates that are not one point to double add to the identity (42_curve R160). -/
theorem padd_of_x_eq (x : Felt) {y1 y2 : Felt} (h : y1 ≠ y2 ∨ y1.val = 0) :
    padd p (.affine x y1) (.affine x y2) = .identity := by
  have hy : ¬ (y1 = y2 ∧ y1.val ≠ 0) := by tauto
  rw [padd, if_pos rfl, if_neg hy]

theorem padd_of_x_ne {x1 x2 : Felt} (y1 y2 : Felt) (h : x1 ≠ x2) :
    padd p (.affine x1 y1) (.affine x2 y2) = lineThird (chordSlope x1 y1 x2 y2) x1 y1 x2 := if_neg h

end

/-! ### The slopes -/

theorem val_fsub_ne_zero {a b : Felt} (h : a ≠ b) : (fsub b a).val ≠ 0 := by
  rw [ne_eq, ← toZ_eq_zero, toZ_fsub, sub_eq_zero, toZ_inj]
  exact h.symm

/-- Twice a nonzero element is nonzero, because `P` is odd (42_curve R161). -/
theorem val_fadd_self_ne_zero {a : Felt} (h : a.val ≠ 0) : (fadd a a).val ≠ 0 := by
  have : Fact (Nat.Prime P) := ⟨P_prime⟩
  rw [ne_eq, ← toZ_eq_zero, toZ_fadd]
  exact fun h0 => h (toZ_eq_neg_self.1 (eq_neg_of_add_eq_zero_left h0))

/-- The slope of the chord solves its equation (42_curve R160). -/
theorem chordSlope_mul {x1 x2 : Felt} (y1 y2 : Felt) (h : x1 ≠ x2) :
    fmul (chordSlope x1 y1 x2 y2) (fsub x2 x1) = fsub y2 y1 :=
  fmul_fmul_finv _ (val_fsub_ne_zero h)

/-- The slope of the tangent solves its equation (42_curve R161). -/
theorem tangentSlope_mul (p : Params) (x : Felt) {y : Felt} (h : y.val ≠ 0) :
    fmul (tangentSlope p x y) (fadd y y) = fadd (fmul (reduceP 3) (fsqr x)) p.alpha :=
  fmul_fmul_finv _ (val_fadd_self_ne_zero h)

theorem chordSlope_comm (x1 y1 x2 y2 : Felt) : chordSlope x1 y1 x2 y2 = chordSlope x2 y2 x1 y1 := by
  have : Fact (Nat.Prime P) := ⟨P_prime⟩
  rw [← toZ_inj]
  simp only [chordSlope, toZ_fmul, toZ_fsub, toZ_finv]
  rw [← neg_sub (toZ y1), ← neg_sub (toZ x1), inv_neg, neg_mul_neg]

/-- The third point of a line does not depend on the order of the two points it goes through. -/
theorem lineThird_comm {lam x1 y1 x2 y2 : Felt} (h : fmul lam (fsub x2 x1) = fsub y2 y1) :
    lineThird lam x1 y1 x2 = lineThird lam x2 y2 x1 := by
  rw [← toZ_inj, toZ_fmul, toZ_fsub, toZ_fsub] at h
  have hx : fsub (fsub (fsqr lam) x1) x2 = fsub (fsub (fsqr lam) x2) x1 := by
    rw [← toZ_inj]
    simp only [toZ_fsub]
    ring
  rw [lineThird, lineThird, hx, Point.affine.injEq, ← toZ_inj (a := fsub _ y1)]
  refine ⟨rfl, ?_⟩
  simp only [toZ_fsub, toZ_fmul]
  linear_combination -h

/-! ### The group laws -/

/-- Addition does not depend on the order, on the curve or off it (42_curve R160). -/
theorem padd_comm (p : Params) (a b : Point) : padd p a b = padd p b a := by
  cases a with
  | identity => rw [padd_identity_left, padd_identity_right]
  | affine x1 y1 =>
    cases b with
    | identity => rfl
    | affine x2 y2 =>
      by_cases hx : x1 = x2
      · subst hx
        by_cases hy : y1 = y2
        · rw [hy]
        · rw [padd_of_x_eq p x1 (.inl hy), padd_of_x_eq p x1 (.inl (Ne.symm hy))]
      · rw [padd_of_x_ne p y1 y2 hx, padd_of_x_ne p y2 y1 (Ne.symm hx), chordSlope_comm x2,
          lineThird_comm (chordSlope_mul y1 y2 hx)]

theorem fneg_eq_self {y : Felt} (h : y.val = 0) : fneg y = y := by
  have : Fact (Nat.Prime P) := ⟨P_prime⟩
  rw [← toZ_inj, toZ_fneg, ← toZ_eq_neg_self.2 h]

/-- A point and its negation add to the identity, on the curve or off it (42_curve R162). -/
theorem padd_pneg (p : Params) (a : Point) : padd p a (pneg a) = .identity := by
  have : Fact (Nat.Prime P) := ⟨P_prime⟩
  cases a with
  | identity => rfl
  | affine x y =>
    refine padd_of_x_eq p x (or_iff_not_imp_left.2 fun hy => toZ_eq_neg_self.1 ?_)
    rw [← toZ_fneg, ← not_not.1 hy]

/-- Addition is associative on a non-singular curve, as it is in the group of the curve (42_curve R162). -/
theorem padd_assoc {p : Params} {a b c : Point} (hp : WellFormedParams p) (ha : pointValid p a = true)
    (hb : pointValid p b = true) (hc : pointValid p c = true) : padd p (padd p a b) c = padd p a (padd p b c) := by
  have : Fact (Nat.Prime P) := ⟨P_prime⟩
  have hd := discriminant_ne_zero hp.nonSingular
  have hab := pointValid_padd ha hb
  have hbc := pointValid_padd hb hc
  apply toGroup_injective hd (ha := pointValid_padd hab hc) (hb := pointValid_padd ha hbc)
  rw [toGroup_padd hd hab hc, toGroup_padd hd ha hb, toGroup_padd hd ha hbc, toGroup_padd hd hb hc, add_assoc]

/-- Settles O35: associativity is the law of the group of the curve, the other laws hold off the curve as well. -/
theorem pointsFormCommutativeGroup : Obligations.PointsFormCommutativeGroup := by
  have : Fact (Nat.Prime P) := ⟨P_prime⟩
  intro p a b c ha hb hc
  exact ⟨pointValid_pneg ha, pointValid_padd ha hb, pointValid_pdbl ha, fun hp =>
    ⟨padd_assoc hp ha hb hc, padd_comm p a b, padd_identity_left p a, padd_identity_right p a, padd_pneg p a⟩⟩

/-! ### The scalar multiplier -/

/-- The recursion of the scalar multiplier with a doubling, at every scalar (42_curve R163). -/
theorem smul_eq_double_add (p : Params) (k : Nat) (a : Point) :
    smul p k a = if k % 2 = 1 then padd p (pdbl p (smul p (k / 2) a)) a else pdbl p (smul p (k / 2) a) := by
  by_cases hk : k = 0
  · rw [hk, smul_zero]
    rfl
  · rw [smul_step p a hk, pdbl_eq_padd_self]

theorem smul_of_odd (p : Params) {k : Nat} (a : Point) (h : k % 2 = 1) :
    smul p k a = padd p (padd p (smul p (k / 2) a) (smul p (k / 2) a)) a := by
  rw [smul_eq_double_add, if_pos h, pdbl_eq_padd_self]

theorem smul_of_even (p : Params) {k : Nat} (a : Point) (h : k % 2 = 0) :
    smul p k a = padd p (smul p (k / 2) a) (smul p (k / 2) a) := by
  rw [smul_eq_double_add, if_neg (by omega), pdbl_eq_padd_self]

theorem smul_one (p : Params) (a : Point) : smul p 1 a = a := by
  rw [smul_of_odd p a rfl, smul_zero, padd_identity_left, padd_identity_left]

theorem smul_identity (p : Params) (k : Nat) : smul p k .identity = .identity := by
  induction k using Nat.strongRecOn with
  | ind k ih =>
    by_cases hk : k = 0
    · rw [hk, smul_zero]
    · rw [smul_step p _ hk, ih (k / 2) (by omega), padd_identity_left, padd_identity_left, ite_self]

/-- The next multiple adds the point once more, as in the group of the curve (42_curve R163). -/
theorem smul_succ {p : Params} {a : Point} (hp : WellFormedParams p) (k : Nat) (ha : pointValid p a = true) :
    smul p (k + 1) a = padd p (smul p k a) a := by
  have : Fact (Nat.Prime P) := ⟨P_prime⟩
  have hd := discriminant_ne_zero hp.nonSingular
  have hk := pointValid_smul k ha
  apply toGroup_injective hd (ha := pointValid_smul (k + 1) ha) (hb := pointValid_padd hk ha)
  rw [toGroup_padd hd hk ha, toGroup_smul hd _ ha, toGroup_smul hd _ ha, succ_nsmul]

/-- `N` times the generator is the neutral element of the group (00_scope R8, W3). -/
theorem order_nsmul_generator [Fact (Nat.Prime P)] {p : Params} (hp : WellFormedParams p)
    (hd : (weierstrass p).Δ ≠ 0) : p.n • toGroup hd p.generator hp.generatorOnCurve = 0 := by
  rw [← toGroup_smul hd]
  exact toGroup_congr hd hp.orderOfGenerator

/-- On the multiples of the generator, multiplying by `N - 1` negates: one more would give `N` times (42_curve R163). -/
theorem smul_pred_order {p : Params} (hp : WellFormedParams p) (j : Nat) :
    smul p (p.n - 1) (smul p j p.generator) = pneg (smul p j p.generator) := by
  have : Fact (Nat.Prime P) := ⟨P_prime⟩
  have hd := discriminant_ne_zero hp.nonSingular
  have hj := pointValid_smul j hp.generatorOnCurve
  apply toGroup_injective hd (ha := pointValid_smul _ hj) (hb := pointValid_pneg hj)
  rw [toGroup_pneg hd hj, toGroup_smul hd _ hj]
  apply eq_neg_of_add_eq_zero_left
  rw [← succ_nsmul, Nat.sub_add_cancel hp.orderPrime.one_le, toGroup_smul hd _ hp.generatorOnCurve, nsmul_left_comm,
    order_nsmul_generator hp hd, nsmul_zero]

/-- Settles O33. -/
theorem scalarMultiplicationIsRepeatedAddition : Obligations.ScalarMultiplicationIsRepeatedAddition :=
  fun p a k => ⟨smul_zero p a, fun _ => smul_of_odd p a, fun _ => smul_of_even p a, smul_one p a, smul_identity p k,
    fun hp => smul_succ hp k⟩

/-! ### The reference datapath of the scalar multiplier -/

/-- From the multiple by the bits already read, the ladder reaches the multiple by the whole scalar (42_curve R164). -/
theorem smulLadder_eq (p : Params) (a : Point) (k n : Nat) :
    smulLadder p a k n (smul p (k / 2 ^ n) a) = smul p k a := by
  induction n with
  | zero => simp [smulLadder]
  | succ n ih =>
    have hbit : k / 2 ^ (n + 1) = k / 2 ^ n / 2 := by rw [pow_succ, Nat.div_div_eq_div_mul]
    rw [smulLadder, hbit, ← smul_eq_double_add, ih]

/-- Settles O34: the ladder begins with no bit read, at the multiple by 0. -/
theorem scalarLadderIsExact : Obligations.ScalarLadderIsExact := by
  intro p a k hk
  rw [smulReference, ← smul_zero p a, ← Nat.div_eq_of_lt hk, smulLadder_eq]

/-! ### The curve commands -/

section
variable {α : Type} {i : Instr} {s : State} {x : Except ErrorKind α} {f : α → State}

/-- A command that writes from an operand completes when the operand has a value. -/
theorem exec_of_operand_ok {v : α} (h : effect i s = x.map f) (hx : x = .ok v) : exec i s = .next (f v).complete :=
  exec_of_effect_ok (h.trans (map_eq_ok.2 ⟨v, hx, rfl⟩))

/-- A command that writes from an operand raises the error of the operand. -/
theorem exec_of_operand_error {k : ErrorKind} (h : effect i s = x.map f) (hx : x = .error k) :
    ∃ t, exec i s = .next t ∧ OnlyRaises s t k (encode i) :=
  ⟨_, exec_of_effect_error (h.trans (map_eq_error.2 hx)), onlyRaises_raise s k _⟩

end

/-- Settles O25. -/
theorem makePoint : Obligations.MakePoint := by
  rintro pd rsx rsy s x y rfl rfl
  rw [ne_eq, ← onCurve_iff_mod]
  refine ⟨hasWord_of_encode (Laws.Encoding.pset pd rsx rsy) rfl rfl, fun h => ?_, fun h => ?_⟩
  · exact ⟨_, exec_of_operand_ok rfl (if_pos h), setsOnlyPt_complete s pd _⟩
  · exact exec_of_operand_error rfl (if_neg h)

/-- Settles O29. -/
theorem pointNegation : Obligations.PointNegation := by
  intro pd ps s
  refine ⟨hasWord_of_encode (Laws.Encoding.pneg pd ps) rfl rfl, _, _, exec_of_effect_ok rfl, setsOnlyPt_complete s pd _,
    fun h => ?_, fun x y h => ?_, padd_pneg _ _, ?_⟩
  · rw [h, pneg]
  · rw [h, pneg]
    exact ⟨fneg y, rfl, val_fneg y, fun hy => by rw [fneg_eq_self hy]⟩
  · rw [padd_comm, padd_pneg]

/-- Settles O30. -/
theorem pointAddition : Obligations.PointAddition := by
  intro pd ps1 ps2 s
  refine ⟨hasWord_of_encode (Laws.Encoding.padd pd ps1 ps2) rfl rfl, _, _, exec_of_effect_ok rfl,
    setsOnlyPt_complete s pd _, fun h => ?_, fun h => ?_, fun x1 y1 x2 y2 h1 h2 => ?_, padd_comm _ _ _⟩
  · rw [h, padd_identity_left]
  · rw [h, padd_identity_right]
  · rw [h1, h2]
    refine ⟨?_, ?_, fun hx => ?_⟩
    · rintro rfl rfl -
      rw [pdbl_eq_padd_self]
    · rintro rfl hy
      exact padd_of_x_eq _ _ hy
    · exact ⟨_, _, _, padd_of_x_ne _ y1 y2 hx, chordSlope_mul y1 y2 hx, rfl, rfl⟩

/-- Settles O31. -/
theorem pointDoubling : Obligations.PointDoubling := by
  intro pd ps s
  refine ⟨hasWord_of_encode (Laws.Encoding.pdbl pd ps) rfl rfl, _, _, exec_of_effect_ok rfl, setsOnlyPt_complete s pd _,
    fun h => ?_, fun x y h => ?_, ?_⟩
  · rw [h, pdbl]
  · rw [h]
    exact ⟨pdbl_of_y_eq_zero _ x,
      fun hy => ⟨_, _, _, pdbl_of_y_ne_zero _ x hy, tangentSlope_mul _ x hy, rfl, rfl⟩⟩
  · rw [pdbl_eq_padd_self]
    exact exec_of_effect_ok rfl

/-- Settles O32. -/
theorem scalarMultiplication : Obligations.ScalarMultiplication := by
  intro pd rk ps s
  refine ⟨hasWord_of_encode (Laws.Encoding.smul pd rk ps) rfl rfl, fun h => ?_, fun h => ?_, smul_pred_order⟩
  · exact ⟨_, exec_of_operand_ok rfl (if_pos h), setsOnlyPt_complete s pd _⟩
  · exact exec_of_operand_error rfl (if_neg h.not_gt)

/-- Settles O26. -/
theorem identityGeneratorAndCopy : Obligations.IdentityGeneratorAndCopy := by
  constructor
  · intro pd s
    exact ⟨
      ⟨hasWord_of_encode (Laws.Encoding.pinf pd) rfl rfl, _, exec_of_effect_ok rfl, setsOnlyPt_complete s pd _⟩,
      ⟨hasWord_of_encode (Laws.Encoding.pgen pd) rfl rfl, _, exec_of_effect_ok rfl, setsOnlyPt_complete s pd _⟩⟩
  · intro pd ps s
    exact ⟨hasWord_of_encode (Laws.Encoding.pmov pd ps) rfl rfl, _, exec_of_effect_ok rfl, setsOnlyPt_complete s pd _⟩

/-- Settles O27: the operand is the coordinate of the point, which the identity does not have. -/
theorem readCoordinates : Obligations.ReadCoordinates := by
  intro rd ps s
  refine ⟨hasWord_of_encode (Laws.Encoding.pgetx rd ps) rfl rfl, hasWord_of_encode (Laws.Encoding.pgety rd ps) rfl rfl,
    fun x y h => ?_, fun h => ?_⟩
  · exact ⟨⟨_, exec_of_operand_ok rfl (congrArg pointX h), setsOnlyE_complete s rd x⟩,
      ⟨_, exec_of_operand_ok rfl (congrArg pointY h), setsOnlyE_complete s rd y⟩⟩
  · exact ⟨exec_of_operand_error rfl (congrArg pointX h), exec_of_operand_error rfl (congrArg pointY h)⟩

/-- Settles O28. -/
theorem pointTests : Obligations.PointTests := by
  refine ⟨fun ps s => ?_, fun rsx rsy s => ?_, fun ps1 ps2 s => ?_⟩
  · exact ⟨hasWord_of_encode (Laws.Encoding.pisinf ps) rfl rfl, _, _, exec_of_effect_ok rfl, setsOnlyFlag_complete s _,
      flagIsIdentity_iff _⟩
  · exact ⟨hasWord_of_encode (Laws.Encoding.ponc rsx rsy) rfl rfl, _, _, exec_of_effect_ok rfl,
      setsOnlyFlag_complete s _, onCurve_iff_mod _ _ _⟩
  · exact ⟨hasWord_of_encode (Laws.Encoding.peq ps1 ps2) rfl rfl, _, _, exec_of_effect_ok rfl,
      setsOnlyFlag_complete s _, peq_iff _ _⟩

end Sys2Proof.Machine

/-!
PROOFS of the statements about the Poseidon permutation (spec/43_poseidon.md): what a round does to each element, the
rounds of the permutation as one numbered list, and what `POSEIDON` does.
-/

namespace Sys2Proof.Machine

/-! ### The rounds -/

/-- The linear layer takes the elements modulo `P`, so that numbers congruent to them may stand in its rows
(43_poseidon R191). -/
theorem isMixed_mix (m : Matrix3) {s : State3} {v0 v1 v2 : Nat} (h0 : s.s0.val ≡ v0 [MOD P])
    (h1 : s.s1.val ≡ v1 [MOD P]) (h2 : s.s2.val ≡ v2 [MOD P]) : IsMixed m v0 v1 v2 (mix m s) := by
  have hrow : ∀ row : State3, (rowTimes row s).val = (row.s0.val * v0 + row.s1.val * v1 + row.s2.val * v2) % P :=
    fun _ => ((h0.mul_left _).add (h1.mul_left _)).add (h2.mul_left _)
  exact ⟨hrow m.row0, hrow m.row1, hrow m.row2⟩

/-- Adding a constant and cubing, over the integers (43_poseidon R192). -/
theorem val_sbox_fadd_modEq (a c : Felt) : (sbox (fadd a c)).val ≡ (a.val + c.val) ^ 3 [MOD P] := by
  have hsum : (fadd a c).val ≡ a.val + c.val [MOD P] := Nat.mod_modEq _ _
  calc (sbox (fadd a c)).val
    _ ≡ (fsqr (fadd a c)).val * (fadd a c).val [MOD P] := Nat.mod_modEq _ _
    _ ≡ (fadd a c).val * (fadd a c).val * (fadd a c).val [MOD P] := (Nat.mod_modEq _ _).mul_right _
    _ = (fadd a c).val ^ 3 := by rw [pow_three']
    _ ≡ (a.val + c.val) ^ 3 [MOD P] := hsum.pow 3

theorem isMixed_fullRound (m : Matrix3) (s c : State3) :
    IsMixed m ((s.s0.val + c.s0.val) ^ 3) ((s.s1.val + c.s1.val) ^ 3) ((s.s2.val + c.s2.val) ^ 3) (fullRound m s c) :=
  isMixed_mix m (val_sbox_fadd_modEq _ _) (val_sbox_fadd_modEq _ _) (val_sbox_fadd_modEq _ _)

theorem isMixed_partialRound (m : Matrix3) (s : State3) (c : Felt) :
    IsMixed m ((s.s0.val + c.val) ^ 3) s.s1.val s.s2.val (partialRound m s c) :=
  isMixed_mix m (val_sbox_fadd_modEq _ _) rfl rfl

/-! ### The permutation as its numbered rounds -/

/-- The rounds of the permutation in the order of their global numbers, each with its row of constants
(43_poseidon R194). -/
def rounds (p : Params) : List (State3 → State3) :=
  p.posFull1.map (fun c s => fullRound p.posM s c) ++ p.posPartial.map (fun c s => partialRound p.posM s c) ++
    p.posFull2.map (fun c s => fullRound p.posM s c)

/-- The state before round `r`, from the input `s`. -/
def stateBefore (p : Params) (s : State3) (r : Nat) : State3 := ((rounds p).take r).foldl (fun t round => round t) s

section
variable {p : Params} (s : State3) {r : Nat}

theorem length_rounds : (rounds p).length = p.posRF1 + p.posRP + p.posRF2 := by
  simp only [rounds, List.length_append, List.length_map, Params.posRF1, Params.posRP, Params.posRF2]

/-- The permutation is all its rounds, one after the other. -/
theorem hades_eq_stateBefore : hades p s = stateBefore p s (p.posRF1 + p.posRP + p.posRF2) := by
  rw [stateBefore, ← length_rounds, List.take_length]
  simp only [rounds, List.foldl_append, List.foldl_map, hades]

/-- Round `r` takes state `r` to state `r + 1`. -/
theorem stateBefore_succ {round : State3 → State3} (h : (rounds p)[r]? = some round) :
    stateBefore p s (r + 1) = round (stateBefore p s r) := by
  rw [stateBefore, List.take_add_one, h, Option.toList_some, List.foldl_append]
  rfl

/-- In a block of the rounds, each round has the constants of its own row (43_poseidon R194). -/
theorem stateBefore_succ_of_block {α : Type} {before after : List (State3 → State3)} {block : List α}
    {round : α → State3 → State3} {q : Nat} {c : α} (hrounds : rounds p = before ++ block.map round ++ after)
    (hc : block[r]? = some c) (hq : q = before.length + r) :
    stateBefore p s (q + 1) = round c (stateBefore p s q) := by
  have hr : r < block.length := (List.getElem?_eq_some_iff.1 hc).1
  apply stateBefore_succ
  rw [hrounds, hq, List.append_assoc, List.getElem?_append_right (by omega), Nat.add_sub_cancel_left,
    List.getElem?_append_left (by rwa [List.length_map]), List.getElem?_map, hc, Option.map_some]

end

/-- Settles O37: the states before the rounds are the sequence. -/
theorem poseidonRounds : Obligations.PoseidonRounds := by
  intro p s
  refine ⟨stateBefore p s, rfl, hades_eq_stateBefore s, fun r c h => ?_, fun r q c hq h => ?_, fun r q c hq h => ?_⟩
  · rw [stateBefore_succ_of_block s (before := []) (List.append_assoc _ _ _) h (Nat.zero_add r).symm]
    exact isMixed_fullRound _ _ _
  · rw [stateBefore_succ_of_block s rfl h (by rw [hq, List.length_map, Params.posRF1])]
    exact isMixed_partialRound _ _ _
  · rw [stateBefore_succ_of_block s (List.append_nil _).symm h
      (by rw [hq, List.length_append, List.length_map, List.length_map, Params.posRF1, Params.posRP])]
    exact isMixed_fullRound _ _ _

/-! ### The command -/

/-- A command whose effect is one write of a permutation state completes. -/
theorem completes_setState3_complete (s : State) (rb : EReg) (h : rb.val ≤ 13) (t : State3) :
    Completes s (setState3 s rb h t).complete := by
  constructor <;> simp [setState3]

/-- The words of `POSEIDON` with a base above 13 are illegal (30_encoding R76 step 4). -/
theorem decode_poseidonBase {rb : EReg} (h : 13 < rb.val) :
    decode (BitVec.ofNat 32 (0x40 * 2 ^ 24 + rb.val * 2 ^ 20)) = .error .poseidonBase := by
  have hword : BitVec.ofNat 32 (0x40 * 2 ^ 24 + rb.val * 2 ^ 20) = pack 0x40 rb.val 0 0 0 := by
    rw [pack]
    exact congrArg (BitVec.ofNat 32) (by omega)
  rw [hword]
  simp (disch := omega) only [decode, pack_op, pack_formatR1, pack_fieldA, if_neg]

/-- Settles O36. -/
theorem poseidonCommand : Obligations.PoseidonCommand := by
  refine fun rb s => ⟨fun h => ?_, decode_poseidonBase⟩
  have hexec : exec (.poseidon rb) s = .next (setState3 s rb h (hades s.params (getState3 s rb h))).complete :=
    exec_of_effect_ok (dif_pos h)
  refine ⟨hasWord_of_encode (Laws.Encoding.poseidon rb) (decide_eq_true h) rfl, _, _, rfl, hexec, ?_, ?_, ?_,
    fun j hj => ?_, fun _ => rfl, rfl, fun _ => rfl, completes_setState3_complete s rb h _⟩
  · rw [State.getE_complete, getE_setState3, if_pos rfl, getState3]
  · rw [State.getE_complete, getE_setState3, if_neg (Nat.succ_ne_self _), if_pos rfl, getState3]
  · rw [State.getE_complete, getE_setState3, if_neg (by simp), if_neg (by simp), if_pos rfl, getState3]
  · rw [State.getE_complete, getE_setState3, if_neg (by omega), if_neg (by omega), if_neg (by omega)]

end Sys2Proof.Machine

/-!
PROOFS of the statements about the Pedersen hash (spec/44_pedersen.md): the chunks of an element, the accumulated point,
and what `PEDERSEN` does.
-/

namespace Sys2Proof.Machine

/-! ### The chunks and the accumulated point -/

/-- An element is below `P`, so its high chunk is at most 8 (44_pedersen R200). -/
theorem highChunk_le (v : Felt) : highChunk v ≤ 8 :=
  Nat.lt_succ_iff.1 (Nat.div_lt_of_lt_mul (v.isLt.trans (by decide)))

theorem lowChunk_of_eq_zero {v : Felt} (h : v.val = 0) : lowChunk v = 0 := by
  rw [lowChunk, h, Nat.zero_mod]

theorem highChunk_of_eq_zero {v : Felt} (h : v.val = 0) : highChunk v = 0 := by
  rw [highChunk, h, Nat.zero_div]

/-- Of two zeros every multiple is the identity, so only the shift point is left (44_pedersen R203). -/
theorem pedersenPoint_of_eq_zero (p : Params) {x y : Felt} (hx : x.val = 0) (hy : y.val = 0) :
    pedersenPoint p x y = p.pedShift.point := by
  simp only [pedersenPoint, lowChunk_of_eq_zero, highChunk_of_eq_zero, hx, hy, smul_zero, padd_identity_right]

/-! ### The command -/

/-- `PEDERSEN` writes the x-coordinate of an affine accumulated point (44_pedersen R202). -/
theorem exec_pedersen_of_affine {rd rs1 rs2 : EReg} {s : State} {xq yq : Felt}
    (h : pedersenPoint s.params (s.getE rs1) (s.getE rs2) = .affine xq yq) :
    ∃ t, exec (.pedersen rd rs1 rs2) s = .next t ∧ SetsOnlyE s t rd xq :=
  ⟨_, exec_of_operand_ok rfl (congrArg pointX h), setsOnlyE_complete s rd xq⟩

/-- Settles O38: the operand is the x-coordinate of the accumulated point, which the identity does not have. -/
theorem pedersenCommand : Obligations.PedersenCommand := by
  rintro rd rs1 rs2 s x y q rfl rfl hsum
  obtain rfl : q = pedersenPoint s.params (s.getE rs1) (s.getE rs2) := hsum
  refine ⟨hasWord_of_encode (Laws.Encoding.pedersen rd rs1 rs2) rfl rfl, highChunk_le _,
    fun xq yq h => exec_pedersen_of_affine h, fun h => exec_of_operand_error rfl (congrArg pointX h), fun hnever => ?_⟩
  cases hq : pedersenPoint s.params (s.getE rs1) (s.getE rs2) with
  | identity => exact absurd hq (hnever _ _)
  | affine xq yq =>
    obtain ⟨t, hexec, hset⟩ := exec_pedersen_of_affine (rd := rd) hq
    exact ⟨t, xq, hexec, hset⟩

/-- Settles O39: the accumulated point is the shift point, which is affine. -/
theorem pedersenOfZeros : Obligations.PedersenOfZeros :=
  fun _ _ _ s h1 h2 => exec_pedersen_of_affine (pedersenPoint_of_eq_zero s.params h1 h2)

end Sys2Proof.Machine

/-!
PROOFS of the statements about signature verification (spec/45_signature.md): arithmetic modulo `N`, multiples of a
point whose order divides `N`, verification as one Boolean equation, and what the signature commands do.
-/

namespace Sys2Proof.Machine

/-! ### Arithmetic modulo `N` -/

section
variable {p : Params}

theorem natCast_nmul (a b : Nat) : ((nmul p a b : Nat) : ZMod p.n) = a * b := by
  rw [nmul, ZMod.natCast_mod, Nat.cast_mul]

/-- The Fermat power inverts modulo the prime `N` (45_signature R211). -/
theorem natCast_mul_ninv (hn : p.n.Prime) {s : Nat} (h0 : s ≠ 0) (hlt : s < p.n) :
    (s : ZMod p.n) * (ninv p s : Nat) = 1 := by
  have : Fact p.n.Prime := ⟨hn⟩
  have hs : (s : ZMod p.n) ≠ 0 := by
    rw [ne_eq, ZMod.natCast_eq_zero_iff]
    exact Nat.not_dvd_of_pos_of_lt (Nat.pos_of_ne_zero h0) hlt
  have hexp : p.n - 2 + 1 = p.n - 1 := by
    have := hn.two_le
    omega
  rw [ninv, natCast_powMod, ← pow_succ', hexp, ZMod.pow_card_sub_one_eq_one hs]

/-- The inverse modulo `N` is unique (45_signature R211). -/
theorem eq_natCast_ninv (hn : p.n.Prime) {s : Nat} (h0 : s ≠ 0) (hlt : s < p.n) {w : ZMod p.n} (hw : w * s = 1) :
    w = (ninv p s : Nat) :=
  left_inv_eq_right_inv hw (natCast_mul_ninv hn h0 hlt)

/-- The inverse modulo `N` is the one number below `N` whose product with `s` is 1 modulo `N` (45_signature R211). -/
theorem eq_ninv_iff (hn : p.n.Prime) {s w : Nat} (h0 : s ≠ 0) (hlt : s < p.n) :
    w = ninv p s ↔ w < p.n ∧ s * w % p.n = 1 := by
  have hlt' : ninv p s < p.n := by
    rw [ninv, powMod_eq]
    exact Nat.mod_lt _ hn.pos
  have hcast (v : Nat) : s * v % p.n = 1 ↔ (v : ZMod p.n) * s = 1 := by
    rw [← Nat.cast_one (R := ZMod p.n), ← Nat.cast_mul, ZMod.natCast_eq_natCast_iff',
      Nat.mod_eq_of_lt hn.one_lt, mul_comm]
  rw [hcast]
  constructor
  · rintro rfl
    exact ⟨hlt', by rw [mul_comm, natCast_mul_ninv hn h0 hlt]⟩
  · rintro ⟨hw, hmul⟩
    have hmod := (ZMod.natCast_eq_natCast_iff' _ _ _).1 (eq_natCast_ninv hn h0 hlt hmul)
    rwa [Nat.mod_eq_of_lt hw, Nat.mod_eq_of_lt hlt'] at hmod

/-- The inverse of a negative modulo `N` is the negative of the inverse. -/
theorem natCast_ninv_of_add_eq_order (hn : p.n.Prime) {s s' : Nat} (h0 : s ≠ 0) (h0' : s' ≠ 0) (h : s' + s = p.n) :
    ((ninv p s' : Nat) : ZMod p.n) = -(ninv p s : Nat) := by
  have hs' : (s' : ZMod p.n) = -s := by
    rw [eq_neg_iff_add_eq_zero, ← Nat.cast_add, h, ZMod.natCast_self]
  refine (eq_natCast_ninv hn h0' (by omega) ?_).symm
  rw [hs', neg_mul_neg, mul_comm, natCast_mul_ninv hn h0 (by omega)]

end

/-! ### Multiples of a point whose order divides `N` -/

section
variable {p : Params} {a b : Point} (hp : WellFormedParams p) (ha : pointValid p a = true)
include hp ha

theorem smul_scalar_add (j k : Nat) : smul p (j + k) a = padd p (smul p j a) (smul p k a) := by
  have : Fact (Nat.Prime P) := ⟨P_prime⟩
  induction k with
  | zero => rw [smul_zero, padd_identity_right, add_zero]
  | succ k ih =>
    rw [← add_assoc, smul_succ hp _ ha, ih, padd_assoc hp (pointValid_smul j ha) (pointValid_smul k ha) ha,
      ← smul_succ hp _ ha]

theorem smul_scalar_mul (j k : Nat) : smul p j (smul p k a) = smul p (j * k) a := by
  have : Fact (Nat.Prime P) := ⟨P_prime⟩
  induction j with
  | zero => rw [zero_mul, smul_zero, smul_zero]
  | succ j ih => rw [smul_succ hp _ (pointValid_smul k ha), ih, add_mul, one_mul, smul_scalar_add hp ha]

/-- The negation of a point is the one point that adds to the identity with it (42_curve R162). -/
theorem eq_pneg_of_padd_eq_identity (hb : pointValid p b = true) (h : padd p a b = .identity) : a = pneg b := by
  calc a = padd p a (padd p b (pneg b)) := by rw [padd_pneg, padd_identity_right]
    _ = pneg b := by rw [← padd_assoc hp ha hb (pointValid_pneg hb), h, padd_identity_left]

theorem pneg_padd (hb : pointValid p b = true) : pneg (padd p a b) = padd p (pneg a) (pneg b) := by
  have : Fact (Nat.Prime P) := ⟨P_prime⟩
  have hd := discriminant_ne_zero hp.nonSingular
  have hab := pointValid_padd ha hb
  have ha' := pointValid_pneg ha
  have hb' := pointValid_pneg hb
  apply toGroup_injective hd (ha := pointValid_pneg hab) (hb := pointValid_padd ha' hb')
  rw [toGroup_pneg hd hab, toGroup_padd hd ha hb, toGroup_padd hd ha' hb', toGroup_pneg hd ha, toGroup_pneg hd hb,
    neg_add]

theorem smul_pneg (k : Nat) : smul p k (pneg a) = pneg (smul p k a) := by
  have : Fact (Nat.Prime P) := ⟨P_prime⟩
  induction k with
  | zero => rw [smul_zero, smul_zero, pneg]
  | succ k ih =>
    rw [smul_succ hp _ (pointValid_pneg ha), ih, smul_succ hp _ ha, pneg_padd hp (pointValid_smul k ha) ha]

variable (hord : smul p p.n a = .identity)
include hord

theorem smul_mod_order (k : Nat) : smul p (k % p.n) a = smul p k a := by
  conv_rhs =>
    rw [← Nat.div_add_mod' k p.n, smul_scalar_add hp ha, ← smul_scalar_mul hp ha, hord, smul_identity,
      padd_identity_left]

theorem smul_congr_order {j k : Nat} (h : (j : ZMod p.n) = k) : smul p j a = smul p k a := by
  rw [← smul_mod_order hp ha hord j, (ZMod.natCast_eq_natCast_iff' _ _ _).1 h, smul_mod_order hp ha hord]

/-- Scalars opposite modulo `N` have opposite multiples (45_signature R219). -/
theorem smul_eq_pneg_smul {j k : Nat} (h : (j : ZMod p.n) = -k) : smul p j a = pneg (smul p k a) := by
  have : Fact (Nat.Prime P) := ⟨P_prime⟩
  refine eq_pneg_of_padd_eq_identity hp (pointValid_smul j ha) (pointValid_smul k ha) ?_
  have hjk : ((j + k : Nat) : ZMod p.n) = (0 : Nat) := by
    rw [Nat.cast_add, h, neg_add_cancel, Nat.cast_zero]
  rw [← smul_scalar_add hp ha, smul_congr_order hp ha hord hjk, smul_zero]

end

/-- The generator is affine and of prime order `N`, so no multiple by a number from 1 to `N - 1` is the identity
(00_scope R8, W3). -/
theorem smul_generator_ne_identity {p : Params} (hp : WellFormedParams p) {d : Nat} (h0 : d ≠ 0) (hlt : d < p.n) :
    smul p d p.generator ≠ .identity := by
  intro h
  have hone : ((ninv p d * d : Nat) : ZMod p.n) = (1 : Nat) := by
    rw [Nat.cast_mul, mul_comm, natCast_mul_ninv hp.orderPrime h0 hlt, Nat.cast_one]
  have hgen : p.generator = .identity := by
    rw [← smul_one p p.generator, ← smul_congr_order hp hp.generatorOnCurve hp.orderOfGenerator hone,
      ← smul_scalar_mul hp hp.generatorOnCurve, h, smul_identity]
  cases hgen

/-! ### The verification function -/

@[simp] theorem flagIsIdentity_pneg (a : Point) : flagIsIdentity (pneg a) = flagIsIdentity a := by
  cases a <;> rfl

/-- A point and its negation have the same x-coordinate (42_curve R151). -/
@[simp] theorem acceptsR_pneg (p : Params) (r : Felt) (a : Point) : acceptsR p r (pneg a) = acceptsR p r a := by
  cases a <;> rfl

section
variable (p : Params) (m r s : Felt) (q : Point)

theorem componentInRange_iff (v : Felt) : componentInRange p v = true ↔ v.val ≠ 0 ∧ v.val < p.n := by
  rw [componentInRange, Bool.and_eq_true, decide_eq_true_eq, decide_eq_true_eq]

theorem acceptsR_iff (a : Point) :
    acceptsR p r a = true ↔ ∃ x y : Felt, a = .affine x y ∧ x.val % p.n = r.val := by
  cases a <;> simp [acceptsR]

/-- Steps 6 to 9 of 45_signature R212: the key's own sum is not the identity, and it or, with `SIG_ALT`, the sum of the
negated key is accepted. -/
theorem verifyArith_eq :
    verifyArith p m r s q = (!flagIsIdentity (verifyPoint p m r s q) &&
      (acceptsR p r (verifyPoint p m r s q) || (p.sigAlt && acceptsR p r (verifyPoint p m r s (pneg q))))) := by
  rw [verifyArith]
  cases verifyPoint p m r s q <;> rfl

/-- Steps 1 and 2 of 45_signature R212 before the point arithmetic. -/
theorem verify_eq :
    verify p m r s q =
      (componentInRange p r && componentInRange p s && !flagIsIdentity q && verifyArith p m r s q) := by
  rw [verify.eq_def]
  cases componentInRange p r && componentInRange p s <;> cases q <;> rfl

theorem verifyArith_iff :
    verifyArith p m r s q = true ↔ ∃ x y : Felt, verifyPoint p m r s q = .affine x y ∧
      (x.val % p.n = r.val ∨ (p.sigAlt = true ∧ ∃ x2 y2 : Felt,
        verifyPoint p m r s (pneg q) = .affine x2 y2 ∧ x2.val % p.n = r.val)) := by
  rw [verifyArith_eq, ← acceptsR_iff]
  cases verifyPoint p m r s q <;> simp [flagIsIdentity, acceptsR]

theorem verify_iff :
    verify p m r s q = true ↔
      r.val ≠ 0 ∧ r.val < p.n ∧ s.val ≠ 0 ∧ s.val < p.n ∧ q ≠ .identity ∧
      verifyArith p m r s q = true := by
  simp only [verify_eq, Bool.and_eq_true, componentInRange_iff, Bool.not_eq_true', ← Bool.not_eq_true,
    flagIsIdentity_iff, and_assoc, ne_eq]

end

/-- The sum for `N - s` is the negation of the sum for `s` (45_signature R219). -/
theorem verifyPoint_of_add_eq_order {p : Params} {m r s s' : Felt} {q : Point} (hp : WellFormedParams p)
    (hq : pointValid p q = true) (hord : smul p p.n q = .identity) (h0 : s.val ≠ 0) (h0' : s'.val ≠ 0)
    (h : s'.val + s.val = p.n) : verifyPoint p m r s' q = pneg (verifyPoint p m r s q) := by
  have : Fact (Nat.Prime P) := ⟨P_prime⟩
  have hscalar (v : Nat) :
      ((nmul p v (ninv p s'.val) : Nat) : ZMod p.n) = -(nmul p v (ninv p s.val) : Nat) := by
    rw [natCast_nmul, natCast_nmul, natCast_ninv_of_add_eq_order hp.orderPrime h0 h0' h, mul_neg]
  rw [verifyPoint, verifyPoint, smul_eq_pneg_smul hp hp.generatorOnCurve hp.orderOfGenerator (hscalar m.val),
    smul_eq_pneg_smul hp hq hord (hscalar r.val),
    pneg_padd hp (pointValid_smul _ hp.generatorOnCurve) (pointValid_smul _ hq)]

/-- Against the key of a private scalar the verification point is the nonce's multiple of the generator
(93_implementation_defined G12). -/
theorem verifyPoint_of_signed {p : Params} {m r s : Felt} {d k : Nat} (hp : WellFormedParams p) (h0 : s.val ≠ 0)
    (hlt : s.val < p.n) (h : s.val * k % p.n = (m.val + r.val * d) % p.n) :
    verifyPoint p m r s (smul p d p.generator) = smul p k p.generator := by
  have hg := hp.generatorOnCurve
  have hsign : (s.val * k : ZMod p.n) = m.val + r.val * d := by
    exact_mod_cast (ZMod.natCast_eq_natCast_iff' _ _ _).2 h
  have hscalar : ((nmul p m.val (ninv p s.val) + nmul p r.val (ninv p s.val) * d : Nat) : ZMod p.n) = k := by
    rw [Nat.cast_add, Nat.cast_mul, natCast_nmul, natCast_nmul]
    linear_combination -(ninv p s.val : ZMod p.n) * hsign + k * natCast_mul_ninv hp.orderPrime h0 hlt
  rw [verifyPoint, smul_scalar_mul hp hg, ← smul_scalar_add hp hg, smul_congr_order hp hg hp.orderOfGenerator hscalar]

/-- Settles O43: on the steps after the identity test, negating the key exchanges the two sums. -/
theorem alternateConvention : Obligations.AlternateConvention := by
  refine fun p m r s q => ⟨fun halt hq hq' => ?_, fun halt x y hv h => ?_⟩
  · have hown := Bool.eq_false_iff.2 (mt (flagIsIdentity_iff _).1 hq)
    have hother := Bool.eq_false_iff.2 (mt (flagIsIdentity_iff _).1 hq')
    rw [verify_eq, verify_eq, verifyArith_eq, verifyArith_eq, hown, hother, halt, pneg_pneg, flagIsIdentity_pneg,
      Bool.true_and, Bool.true_and, Bool.or_comm]
  · obtain ⟨-, -, -, -, -, harith⟩ := (verify_iff ..).1 h
    simpa [verifyArith_eq, hv, halt, flagIsIdentity, acceptsR] using harith

/-- Settles O44: the message enters the verification point only through its product modulo `N`. -/
theorem messageEntersModuloN : Obligations.MessageEntersModuloN := by
  intro p m m' r s q h
  have hscalar (w : Nat) : nmul p m'.val w = nmul p m.val w := by
    rw [nmul, nmul, h, add_mul, Nat.add_mul_mod_self_left]
  simp only [verify_eq, verifyArith_eq, verifyPoint, hscalar]

/-- Settles O45: both sums turn into their negations, which are accepted alike. -/
theorem negatedSignatureVerifies : Obligations.NegatedSignatureVerifies := by
  intro p m r s s' q hp hq hord hadd h
  obtain ⟨hr0, hr, hs0, hs, hqi, harith⟩ := (verify_iff ..).1 h
  have hs0' : s'.val ≠ 0 := by omega
  have hord' : smul p p.n (pneg q) = .identity := by rw [smul_pneg hp hq, hord, pneg]
  refine (verify_iff ..).2 ⟨hr0, hr, hs0', by omega, hqi, ?_⟩
  rwa [verifyArith_eq, verifyPoint_of_add_eq_order hp hq hord hs0 hs0' hadd,
    verifyPoint_of_add_eq_order hp (pointValid_pneg hq) hord' hs0 hs0' hadd, flagIsIdentity_pneg, acceptsR_pneg,
    acceptsR_pneg, ← verifyArith_eq]

/-- Settles O46: the verification point is the nonce's multiple of the generator, whose x-coordinate gave `r`. -/
theorem signThenVerify : Obligations.SignThenVerify := by
  intro p m r s x y d k hp hd0 hd hk hrx hr0 hr hs0 hs hsign
  refine (verify_iff ..).2 ⟨hr0, hr, hs0, hs, smul_generator_ne_identity hp (by omega) hd, ?_⟩
  exact (verifyArith_iff ..).2 ⟨x, y, (verifyPoint_of_signed hp hs0 hs hsign).trans hk, .inl hrx.symm⟩

/-! ### The commands -/

/-- Settles O40: the range check is the operand of the command, which writes nothing. -/
theorem signatureRangeCheck : Obligations.SignatureRangeCheck := by
  intro rs s
  refine ⟨hasWord_of_encode (Laws.Encoding.schk rs) rfl rfl, fun h1 hn => ?_, fun h => ?_⟩
  · have hrange := (componentInRange_iff s.params (s.getE rs)).2 ⟨by omega, hn⟩
    exact ⟨_, exec_of_operand_ok rfl (if_pos hrange), onlyCompletes_complete s⟩
  · have hrange := mt (componentInRange_iff s.params (s.getE rs)).1 (by omega)
    exact exec_of_operand_error rfl (if_neg hrange)

/-- Settles O41: the inverse in the verification function is the one `w` of the equation. -/
theorem verifyCommand : Obligations.VerifyCommand := by
  rintro rm rr rs pk st p m r s q rfl rfl rfl rfl rfl
  refine ⟨hasWord_of_encode (Laws.Encoding.verify rm rr rs pk) rfl rfl, _, exec_of_effect_ok rfl,
    setsOnlyFlag_complete st _, fun hn => (verify_iff ..).trans ⟨?_, ?_⟩⟩
  · rintro ⟨hr0, hr, hs0, hs, hq, harith⟩
    obtain ⟨hw, hmul⟩ := (eq_ninv_iff hn hs0 hs).1 rfl
    exact ⟨hr0, hr, hs0, hs, hq, _, _, _, hw, hmul, rfl, rfl, (verifyArith_iff ..).1 harith⟩
  · rintro ⟨hr0, hr, hs0, hs, hq, w, -, -, hw, hmul, rfl, rfl, harith⟩
    obtain rfl := (eq_ninv_iff hn hs0 hs).2 ⟨hw, hmul⟩
    exact ⟨hr0, hr, hs0, hs, hq, (verifyArith_iff ..).2 harith⟩

/-- The on-curve test of raw coordinates comes between the range check and the verification function
(45_signature R218). -/
theorem verifyXY_iff (p : Params) (m r s xq yq : Felt) :
    verifyXY p m r s xq yq = true ↔
      componentInRange p r = true ∧ componentInRange p s = true ∧ onCurve p xq yq = true ∧
      verify p m r s (.affine xq yq) = true := by
  simp only [verifyXY, Bool.if_false_right, Bool.and_eq_true, decide_eq_true_eq, and_assoc]

/-- Settles O42: the on-curve test is the curve equation over the integers modulo `P`. -/
theorem verifyCoordinatesCommand : Obligations.VerifyCoordinatesCommand := by
  rintro rm rr rs rx ry st m r s xq yq rfl rfl rfl rfl rfl
  refine ⟨hasWord_of_encode (Laws.Encoding.verifyxy rm rr rs rx ry) rfl rfl, _, _, exec_of_effect_ok rfl,
    setsOnlyFlag_complete st _, (verifyXY_iff ..).trans ?_⟩
  rw [componentInRange_iff, componentInRange_iff, onCurve_iff_mod, and_assoc, and_assoc]

end Sys2Proof.Machine

/-!
PROOFS of the statements about the system commands (spec/46_system.md).
-/

namespace Sys2Proof.Machine

/-- Settles O10: the effect of `NOP` is the state before it. -/
theorem noOperation : Obligations.NoOperation :=
  ⟨hasWord_of_encode Laws.Encoding.nop rfl rfl, fun s => ⟨_, exec_of_effect_ok rfl, onlyCompletes_complete s⟩⟩

/-- No command but `CLRERR` clears a recorded error: one that completes keeps the latch, and error entry leaves it set
(10_state R29). -/
theorem eq_clrerr_of_exec_clears_err {i : Instr} {s t : State} (h : exec i s = .next t) (hs : s.err ≠ none)
    (ht : t.err = none) : i = .clrerr := by
  obtain ⟨u, hu, rfl⟩ | ⟨k, -, rfl⟩ := exec_cases h
  · obtain hclr | ⟨herr, -⟩ := effect_ok_latch hu
    · exact hclr
    · exact absurd (herr.symm.trans ht) hs
  · exact absurd ht (s.raise_err_ne_none k _)

/-- Settles O11: the effect of `CLRERR` is the acknowledgement, after which it changes nothing but `LAST`. -/
theorem acknowledgeError : Obligations.AcknowledgeError := by
  refine ⟨hasWord_of_encode Laws.Encoding.clrerr rfl rfl, fun s => ⟨?_, fun i t => eq_clrerr_of_exec_clears_err⟩⟩
  obtain ⟨helems, hpoints, hflag, hbuf, hlast, herr, herrcmd, hparams, hpending, hanswers⟩ :=
    onlyCompletes_complete s.acknowledge
  exact ⟨_, exec_of_effect_ok rfl, herr, herrcmd, hlast, helems, hpoints, hflag, hbuf, hparams, hpending, hanswers⟩

end Sys2Proof.Machine

/-!
PROOFS of the statements about exceptions (spec/60_exceptions.md): an issued word completes or raises one error of its row
of the table, what it computes does not depend on the status, and a clear latch at the end records that nothing was raised.
-/

namespace Sys2Proof.Machine

/-! ### The error an issued word can raise -/

/-- No legal command raises `IllegalCommand` (60_exceptions R243). -/
theorem mayRaise_illegalCommand (i : Instr) : mayRaise i .illegalCommand = false := by
  cases i <;> rfl

theorem wordMayRaise_of_decode {w : Word} {i : Instr} (h : decode w = .ok i) (k : ErrorKind) :
    wordMayRaise w k = mayRaise i k := by
  rw [wordMayRaise, h]

theorem wordMayRaise_of_illegal {w : Word} {r : Illegal} (h : decode w = .error r) (k : ErrorKind) :
    wordMayRaise w k = decide (k = .illegalCommand) := by
  rw [wordMayRaise, h]

/-- `IllegalCommand` is in the row of the illegal words only (60_exceptions R243). -/
theorem illegal_of_wordMayRaise {w : Word} (h : wordMayRaise w .illegalCommand = true) : ∃ r, decode w = .error r := by
  cases hd : decode w with
  | error r => exact ⟨r, rfl⟩
  | ok i => simp [wordMayRaise_of_decode hd, mayRaise_illegalCommand] at h

/-- The error of a decoded command is in the row of its word: the word is well formed (60_exceptions R241). -/
theorem wordMayRaise_of_effect_error {w : Word} {i : Instr} {s : State} {k : ErrorKind} (hd : decode w = .ok i)
    (h : effect i s = .error k) : wordMayRaise w k = true := by
  obtain ⟨hwf, -⟩ := encodeOfDecode w i hd
  rw [wordMayRaise_of_decode hd]
  obtain hk | ⟨hnot, -⟩ := effect_error h
  · exact hk
  · exact absurd (hwf.symm.trans hnot) (by decide)

/-- An issued word completes the effect of its command, or enters one error of its row with the word itself
(60_exceptions R244, R245): the encoding of a decoded command is the word it was decoded from. -/
theorem issue_completes_or_raises {w : Word} {s t : State} (h : issue w s = .next t) :
    (∃ i u, decode w = .ok i ∧ effect i s = .ok u ∧ t = u.complete) ∨
    (∃ k, wordMayRaise w k = true ∧ t = s.raise k w) := by
  obtain hok | ⟨i, k, hd, hk, rfl⟩ | ⟨r, hd, rfl⟩ := issue_cases h
  · exact .inl hok
  · obtain ⟨-, hw⟩ := encodeOfDecode w i hd
    exact .inr ⟨k, wordMayRaise_of_effect_error hd hk, by rw [hw]⟩
  · exact .inr ⟨.illegalCommand, by simp [wordMayRaise_of_illegal hd], rfl⟩

/-- Settles O9. -/
theorem onlyListedErrorsAreRaised : Obligations.OnlyListedErrorsAreRaised := by
  intro w s t k h hlast
  obtain ⟨i, u, -, -, rfl⟩ | ⟨k', hk', rfl⟩ := issue_completes_or_raises h
  · simp at hlast
  · obtain rfl : k' = k := by simpa using hlast
    exact hk'

/-- Settles O7: only the row of the illegal words has `IllegalCommand`, and an illegal word enters it. -/
theorem illegalCommandExactlyForIllegalWords : Obligations.IllegalCommandExactlyForIllegalWords := by
  intro w s
  obtain ⟨t, ht⟩ : ∃ t, issue w s = .next t := transact_answers (.issue w) s
  have hraises : (∃ r, decode w = .error r) → OnlyRaises s t .illegalCommand w := by
    rintro ⟨r, hr⟩
    obtain rfl := Host.Outcome.next.inj (ht.symm.trans (issue_of_illegal s hr))
    exact onlyRaises_raise s _ w
  exact ⟨t, ht, ⟨fun hlast => illegal_of_wordMayRaise (onlyListedErrorsAreRaised w s t _ ht hlast),
    fun hr => (hraises hr).last⟩, hraises⟩

/-- Settles O8. -/
theorem commandsCompleteOrEnterAnError : Obligations.CommandsCompleteOrEnterAnError := by
  refine ⟨fun w s => ?_, rfl, rfl, rfl, rfl, rfl, rfl, rfl⟩
  obtain ⟨t, ht⟩ : ∃ t, issue w s = .next t := transact_answers (.issue w) s
  refine ⟨t, ht, ?_⟩
  obtain ⟨i, u, hd, hu, rfl⟩ | ⟨k, -, rfl⟩ := issue_completes_or_raises ht
  · refine .inl ⟨rfl, ?_⟩
    obtain rfl | hlatch := effect_ok_latch hu
    · exact .inl hd
    · exact .inr hlatch
  · exact .inr ⟨k, onlyRaises_raise s k w⟩

/-! ### What a command computes does not depend on the status -/

/-- Two states hold the same constant tables, registers and buffer, and under the condition `c` the same `FLAG`. The
status registers `LAST`, `ERR`, `ERRCMD` and the record of the host may differ. -/
structure AgreeOnOperands (c : Prop) (s s' : State) : Prop where
  params : s.params = s'.params
  e : s.e = s'.e
  pt : s.pt = s'.pt
  buf : s.buf = s'.buf
  flag : c → s.flag = s'.flag

/-- Two effects raise the same error, or make writes that leave agreeing states. -/
inductive SameEffect (c : Prop) : Except ErrorKind State → Except ErrorKind State → Prop
  | ok {u u' : State} (h : AgreeOnOperands c u u') : SameEffect c (.ok u) (.ok u')
  | error (k : ErrorKind) : SameEffect c (.error k) (.error k)

section
variable {c : Prop} {s s' : State}

theorem AgreeOnOperands.getE (h : AgreeOnOperands c s s') (j : EReg) : s.getE j = s'.getE j := by
  rw [State.getE, State.getE, h.e]

theorem AgreeOnOperands.getPt (h : AgreeOnOperands c s s') (j : PReg) : s.getPt j = s'.getPt j := by
  rw [State.getPt, State.getPt, h.pt]

theorem AgreeOnOperands.setE (h : AgreeOnOperands c s s') (rd : EReg) (v : Felt) :
    AgreeOnOperands c (s.setE rd v) (s'.setE rd v) :=
  { h with e := by simp [h.e] }

theorem AgreeOnOperands.setPt (h : AgreeOnOperands c s s') (pd : PReg) (q : Point) :
    AgreeOnOperands c (s.setPt pd q) (s'.setPt pd q) :=
  { h with pt := by simp [h.pt] }

theorem AgreeOnOperands.setFlag (h : AgreeOnOperands c s s') (b : Bool) :
    AgreeOnOperands c (s.setFlag b) (s'.setFlag b) :=
  { h with flag := fun _ => rfl }

theorem AgreeOnOperands.setBuf (h : AgreeOnOperands c s s') (m : Memory) :
    AgreeOnOperands c (s.setBuf m) (s'.setBuf m) :=
  { h with buf := rfl }

theorem AgreeOnOperands.acknowledge (h : AgreeOnOperands c s s') : AgreeOnOperands c s.acknowledge s'.acknowledge :=
  { h with }

theorem AgreeOnOperands.complete (h : AgreeOnOperands c s s') : AgreeOnOperands c s.complete s'.complete :=
  { h with }

theorem AgreeOnOperands.raise (h : AgreeOnOperands c s s') (k : ErrorKind) (w : Word) :
    AgreeOnOperands c (s.raise k w) (s'.raise k w) := by
  constructor
  case params => simpa using h.params
  case e => simpa using h.e
  case pt => simpa using h.pt
  case buf => simpa using h.buf
  case flag => simpa using h.flag

theorem AgreeOnOperands.getState3 (h : AgreeOnOperands c s s') (rb : EReg) (hb : rb.val ≤ 13) :
    getState3 s rb hb = getState3 s' rb hb := by
  simp only [Machine.getState3, h.getE]

theorem AgreeOnOperands.setState3 (h : AgreeOnOperands c s s') (rb : EReg) (hb : rb.val ≤ 13) (x : State3) :
    AgreeOnOperands c (setState3 s rb hb x) (setState3 s' rb hb x) :=
  ((h.setE _ _).setE _ _).setE _ _

/-- Agreeing writes after one operand, which may be refused. -/
theorem SameEffect.map {α : Type} {f g : α → State} (x : Except ErrorKind α) (h : ∀ v, AgreeOnOperands c (f v) (g v)) :
    SameEffect c (x.map f) (x.map g) := by
  cases x with
  | error k => exact .error k
  | ok v => exact .ok (h v)

/-- Every command reads its operands from the tables, the registers and the buffer only: from agreeing states it computes
one value and writes it to one destination, or raises one error (10_state R27, R31; 60_exceptions R249). -/
theorem AgreeOnOperands.effect (h : AgreeOnOperands c s s') (i : Instr) :
    SameEffect c (effect i s) (effect i s') := by
  cases i <;> simp only [Machine.effect, h.getE, h.getPt, h.params, h.buf]
  case nop => exact .ok h
  case clrerr => exact .ok h.acknowledge
  case ste => exact .ok (h.setBuf _)
  case fli | fmov | fadd | fsub | fneg | fmul | fsqr | fpow => exact .ok (h.setE _ _)
  case feq | pisinf | ponc | peq | verify | verifyxy => exact .ok (h.setFlag _)
  case pinf | pgen | pmov | pneg | padd | pdbl => exact .ok (h.setPt _ _)
  case lde | pgetx | pgety | pedersen => exact .map _ fun _ => h.setE _ _
  case pset | smul => exact .map _ fun _ => h.setPt _ _
  case schk => exact .map _ fun _ => h
  case finv =>
    split
    · exact .error _
    · exact .ok (h.setE _ _)
  case poseidon =>
    split
    · rw [h.getState3]
      exact .ok (h.setState3 _ _ _)
    · exact .error _

/-- The shared end of a command keeps the agreement and answers with the same `LAST` (10_state R22). -/
theorem SameEffect.settle {i : Instr} {t t' : State} {x x' : Except ErrorKind State} (hx : SameEffect c x x')
    (h : AgreeOnOperands c s s') (ht : settle i s x = .next t) (ht' : settle i s' x' = .next t') :
    AgreeOnOperands c t t' ∧ t.last = t'.last := by
  cases hx with
  | ok hu =>
    cases ht
    cases ht'
    exact ⟨hu.complete, rfl⟩
  | error k =>
    cases ht
    cases ht'
    exact ⟨h.raise k _, by simp⟩

/-- From agreeing states an issued word leaves agreeing states, with the same `LAST`. -/
theorem AgreeOnOperands.issue {w : Word} {t t' : State} (h : AgreeOnOperands c s s') (ht : issue w s = .next t)
    (ht' : issue w s' = .next t') : AgreeOnOperands c t t' ∧ t.last = t'.last := by
  cases hd : decode w with
  | error r =>
    rw [issue_of_illegal _ hd] at ht ht'
    cases ht
    cases ht'
    exact ⟨h.raise _ w, by simp⟩
  | ok i =>
    rw [issue_of_decode _ hd, exec_eq_settle] at ht ht'
    exact (h.effect i).settle h ht ht'

end

/-- Settles O55: the condition under which the states agree on `FLAG` is that they did before the word. -/
theorem statusDoesNotSteerCommands : Obligations.StatusDoesNotSteerCommands := by
  intro w s s' t t' hparams he hpt hbuf ht ht'
  have h : AgreeOnOperands (s.flag = s'.flag) s s' := ⟨hparams, he, hpt, hbuf, id⟩
  obtain ⟨hagree, hlast⟩ := h.issue ht ht'
  exact ⟨hagree.e, hagree.pt, hagree.buf, hlast, hagree.flag⟩

/-! ### The error latch along a list of words -/

/-- A word other than `CLRERR` that leaves the latch clear raised no error and found the latch clear
(10_state R29, 60_exceptions R249). -/
theorem issue_leaves_err_none {w : Word} {s t : State} (hw : decode w ≠ .ok .clrerr) (h : issue w s = .next t)
    (ht : t.err = none) : t.last = none ∧ s.err = none ∧ t.errcmd = s.errcmd := by
  obtain ⟨i, u, hd, hu, rfl⟩ | ⟨k, -, rfl⟩ := issue_completes_or_raises h
  · obtain rfl | ⟨herr, herrcmd⟩ := effect_ok_latch hu
    · exact absurd hd hw
    · exact ⟨rfl, herr.symm.trans ht, herrcmd⟩
  · exact absurd ht (s.raise_err_ne_none k w)

theorem transactAll_cons_eq_next {x : Transaction} {xs : List Transaction} {s u : State} :
    transactAll (x :: xs) s = .next u ↔ ∃ t, transact x s = .next t ∧ transactAll xs t = .next u := by
  obtain ⟨t, ht⟩ := transact_answers x s
  simp [transactAll, ht]

/-- A list made in two parts is the second part from where the first one ends. -/
theorem transactAll_append_eq_next {xs ys : List Transaction} {s u : State} :
    transactAll (xs ++ ys) s = .next u ↔ ∃ t, transactAll xs s = .next t ∧ transactAll ys t = .next u := by
  induction xs generalizing s with
  | nil => simp [transactAll]
  | cons x xs ih =>
    simp only [List.cons_append, transactAll_cons_eq_next, ih]
    exact ⟨fun ⟨t, hx, v, hv, hu⟩ => ⟨v, ⟨t, hx, hv⟩, hu⟩, fun ⟨v, ⟨t, hx, hv⟩, hu⟩ => ⟨t, hx, v, hv, hu⟩⟩

/-- Words other than `CLRERR` that leave the latch clear found it clear and kept its word. -/
theorem transactAll_leaves_err_none {words : List Word} {s u : State} (hw : ∀ w ∈ words, decode w ≠ .ok .clrerr)
    (h : transactAll (words.map .issue) s = .next u) (hu : u.err = none) : s.err = none ∧ u.errcmd = s.errcmd := by
  induction words generalizing s with
  | nil =>
    cases h
    exact ⟨hu, rfl⟩
  | cons w words ih =>
    obtain ⟨hfirst, hrest⟩ := List.forall_mem_cons.1 hw
    obtain ⟨t, ht, h⟩ := transactAll_cons_eq_next.1 h
    obtain ⟨hterr, hcmd⟩ := ih hrest h
    obtain ⟨-, hserr, hcmd'⟩ := issue_leaves_err_none hfirst ht hterr
    exact ⟨hserr, hcmd.trans hcmd'⟩

/-- Settles O57: the latch is clear after every word of the list, since the words after it leave it clear. -/
theorem noErrorAtTheEndMeansNoError : Obligations.NoErrorAtTheEndMeansNoError := by
  rintro _ s u hw h hu before w after t rfl ht
  rw [List.append_cons, List.forall_mem_append] at hw
  rw [List.append_cons, List.map_append, transactAll_append_eq_next] at h
  obtain ⟨hupto, hafter⟩ := hw
  obtain ⟨t₁, ht₁, h⟩ := h
  obtain rfl := Host.Outcome.next.inj (ht.symm.trans ht₁)
  obtain ⟨hterr, -⟩ := transactAll_leaves_err_none hafter h hu
  obtain ⟨-, hcmd⟩ := transactAll_leaves_err_none hupto ht hterr
  rw [List.map_append, transactAll_append_eq_next] at ht
  obtain ⟨v, -, hv⟩ := ht
  obtain ⟨t₁, hissue, hend⟩ := transactAll_cons_eq_next.1 hv
  cases hend
  obtain ⟨hlast, -, -⟩ := issue_leaves_err_none (hupto w (by simp)) hissue hterr
  exact ⟨hlast, hterr, hcmd⟩

end Sys2Proof.Machine
